-- ==== Sys2Proof/Word.lean ====
section
/-! DEFINITION. The word widths of the ALS signal conditioner (00_scope.md R8). -/

namespace Sys2Proof

/-- One byte on the two-wire bus (20_memory.md R61). -/
abbrev Byte := BitVec 8

/-- A device register's value, `REG_W` = 16 bits (00_scope.md R8). -/
abbrev Reg16 := BitVec 16

/-- A command word, operand or result, `CW_W` = `OPD_W` = `RES_W` = 32 bits (00_scope.md R8). -/
abbrev Word32 := BitVec 32

/-- A device register's address byte, `REG_ADDR_W` = 8 bits (00_scope.md R8). -/
abbrev RegByte := BitVec 8

end Sys2Proof
end

