-- ==== Sys2Proof/Syntax.lean ====
section
/-! DEFINITION. The commands of the block (30_encoding.md R84) and the names they carry: fields, registers,
gains, integration times, threshold selects. -/

namespace Sys2Proof

/-- The eight device fields, in the order of their ids (30_encoding.md R91). -/
inductive Field where
  | gain | it | pers | intEn | sd | psmEn | psmMode | intStatus
deriving DecidableEq, Repr, Inhabited

/-- The seven device registers, in the order of their addresses 0x00 to 0x06 (10_state.md R30). -/
inductive RegAddr where
  | setting | highThresh | lowThresh | powerSave | ambientData | whiteData | intStatus
deriving DecidableEq, Repr, Inhabited

/-- The four gains, under the symbols of 30_encoding.md R92: 1, 2, 1/8 and 1/4 (10_state.md R32). -/
inductive Gain where
  | g1 | g2 | g1_8 | g1_4
deriving DecidableEq, Repr, Inhabited

/-- The six legal integration times, under the symbols of 30_encoding.md R92 (10_state.md R33). -/
inductive IntTime where
  | it100 | it200 | it400 | it800 | it50 | it25
deriving DecidableEq, Repr, Inhabited

/-- The threshold select of SET_THRESH (30_encoding.md R85): 0 is high, 1 is low. -/
inductive Threshold where
  | high | low
deriving DecidableEq, Repr, Inhabited

/-- The ten commands (30_encoding.md R84), one constructor for each row of spec/opcode_table.json. An
integration-time code is carried raw, because every 4-bit code is a legal encoding (30_encoding.md R86). -/
inductive Instr where
  /-- ENCODE: field, logical value (40_register_codec.md R113). -/
  | encodeField (f : Field) (x : Word32)
  /-- DECODE: field, register value (40_register_codec.md R114). -/
  | decodeField (f : Field) (v : Reg16)
  /-- APPLY: field, current register value, new code (40_register_codec.md R115). -/
  | applyField (f : Field) (v : Reg16) (b : Reg16)
  /-- RAW2LUX: gain, integration-time code, raw count (41_lux_engine.md R145). -/
  | rawToLux (g : Gain) (t : BitVec 4) (raw : Reg16)
  /-- LUX2RAW: gain, integration-time code, lux as a 32-bit pattern (42_threshold_mapper.md R173). -/
  | luxToRaw (g : Gain) (t : BitVec 4) (lux : Word32)
  /-- SET_FIELD: field, logical value (40_register_codec.md R116). -/
  | setField (f : Field) (x : Word32)
  /-- GET_FIELD: field (40_register_codec.md R117). -/
  | getField (f : Field)
  /-- READ_LUX (41_lux_engine.md R146). -/
  | readLux
  /-- READ_RAW: register (40_register_codec.md R118). -/
  | readRaw (a : RegAddr)
  /-- SET_THRESH: threshold select, lux as a 32-bit pattern (42_threshold_mapper.md R174). -/
  | setThresh (sel : Threshold) (lux : Word32)
deriving DecidableEq, Repr

end Sys2Proof
end

