-- ==== Sys2Proof/Bus.lean ====
section
/-! DEFINITION. The vocabulary of the register transport (20_memory.md): the calls, the answers, the history's
records, and the device's register file. -/

namespace Sys2Proof

/-- A transport call of the block: `MemRead(a, 2)` or `MemWrite(a, 2, v)` (00_scope.md R11, 20_memory.md R60). -/
inductive BusCall where
  | read (a : RegAddr)
  | write (a : RegAddr) (v : Reg16)
deriving DecidableEq, Repr, Inhabited

/-- How the transport answers one call (20_memory.md R66, R68). -/
inductive Answer where
  /-- `Ok(v)` to a read; `Ok` to a write, whatever `v`. -/
  | ok (v : Reg16)
  /-- `Err`: an opaque bus failure. -/
  | err
  /-- The call is never answered (20_memory.md R68). -/
  | silent
  /-- `Ok` as the deterministic device model answers (20_memory.md R75): a read returns what the device's
  register holds, a write is stored. -/
  | held
deriving DecidableEq, Repr, Inhabited

/-- One record of the transport history (20_memory.md R66), with the device address each call carries
(20_memory.md R60), and the settle event (70_reset_and_hazards.md R240). -/
inductive Event where
  /-- A read of register address `a`, answered `Ok(v)` (`some v`) or `Err` (`none`). -/
  | read (dev : BitVec 7) (a : RegByte) (answer : Option Reg16)
  /-- A write of `v` to register address `a`, answered `Ok` (`true`) or `Err` (`false`). -/
  | write (dev : BitVec 7) (a : RegByte) (v : Reg16) (ok : Bool)
  /-- The settle wait. -/
  | settle
deriving DecidableEq, Repr, Inhabited

/-- The seven device registers (10_state.md R30). -/
structure DeviceRegs where
  setting : Reg16
  highThresh : Reg16
  lowThresh : Reg16
  powerSave : Reg16
  ambientData : Reg16
  whiteData : Reg16
  intStatus : Reg16
deriving DecidableEq, Repr, Inhabited

end Sys2Proof
end

