-- ==== Sys2Proof/Config.lean ====
section
/-! DEFINITION. What an implementation fixes (00_scope.md R8) and the free values: opaque constants without a
body, of which Lean can prove nothing. The values this hardware takes are in Machine/Parameters.lean. -/

namespace Sys2Proof

/-- The sensor's two bus addresses (00_scope.md R8, 20_memory.md R70). -/
inductive DevAddr where
  | default | alternate
deriving DecidableEq, Repr, Inhabited

/-- What the threshold mapper does with a count above 0xFFFF (42_threshold_mapper.md R172). -/
inductive ThreshOverflow where
  | reject | saturate
deriving DecidableEq, Repr, Inhabited

/-- A value of `T_SETTLE_MS`: a real of at least 4 (00_scope.md R8). It is held without computational content,
because no step reads it (70_reset_and_hazards.md R247) and the machine has to run. -/
abbrev SettleMs := Erased {t : ℝ // 4 ≤ t}

/-- The default of `T_SETTLE_MS`: 4 (00_scope.md R8). -/
def defaultSettleMs : SettleMs := Erased.mk ⟨4, le_refl 4⟩

/-- The block's parameters (00_scope.md R8). The widths are types (Word.lean). -/
structure Params where
  /-- `DEV_ADDR`. -/
  devAddr : DevAddr
  /-- `T_SETTLE_MS`, 4 unless it is given. -/
  settleMs : SettleMs := defaultSettleMs
  /-- `RES_TABLE`, in 10⁻⁴ lux per count (41_lux_engine.md R141). -/
  resTable : Gain → IntTime → Nat
  resTable_eighth_800 : resTable .g1_8 .it800 = 576
  resTable_two_25 : resTable .g2 .it25 = 1152
  /-- `KNEE_LUX`. -/
  kneeLux : Nat
  /-- `THRESH_MAX_LUX`. -/
  threshMaxLux : Nat
  /-- `THRESH_OVERFLOW`. -/
  threshOverflow : ThreshOverflow
  /-- `DEVICE_INIT`: the device registers at the device's n-th power-up. -/
  deviceInit : Nat → DeviceRegs

/-- `DEV_ADDR` of this instance: one of the two values (20_memory.md R70). Free. -/
opaque Config.devAddr : DevAddr

/-- `T_SETTLE_MS` (OPEN, 00_scope.md R8, 70_reset_and_hazards.md R240): any real of at least 4. Free. -/
opaque Config.settleMs : SettleMs

/-- `DEVICE_INIT` (OPEN, 10_state.md R48): the device registers at the device's n-th power-up. Free. -/
opaque Config.deviceInit : Nat → DeviceRegs

/-- The transport's answer to the n-th call of the run after the given history (20_memory.md R66), where the
state lists no answer. Free. -/
opaque Config.freeAnswer : Nat → List Event → BusCall → Answer

end Sys2Proof
end

