-- ==== Sys2Proof/Machine/Parameters.lean ====
section
/-! DEFINITION. The parameter values this hardware takes (00_scope.md R8). -/

namespace Sys2Proof.Machine

open Sys2Proof

/-- `RES_TABLE`, the whole table of 41_lux_engine.md R141, in 10⁻⁴ lux per count. -/
def resolution : Gain → IntTime → Nat
  | .g2, .it800 => 36
  | .g1, .it800 => 72
  | .g1_4, .it800 => 288
  | .g1_8, .it800 => 576
  | .g2, .it400 => 72
  | .g1, .it400 => 144
  | .g1_4, .it400 => 576
  | .g1_8, .it400 => 1152
  | .g2, .it200 => 144
  | .g1, .it200 => 288
  | .g1_4, .it200 => 1152
  | .g1_8, .it200 => 2304
  | .g2, .it100 => 288
  | .g1, .it100 => 576
  | .g1_4, .it100 => 2304
  | .g1_8, .it100 => 4608
  | .g2, .it50 => 576
  | .g1, .it50 => 1152
  | .g1_4, .it50 => 4608
  | .g1_8, .it50 => 9216
  | .g2, .it25 => 1152
  | .g1, .it25 => 2304
  | .g1_4, .it25 => 9216
  | .g1_8, .it25 => 18432

/-- The number of a bus address (00_scope.md R8). -/
def devAddrBits : DevAddr → BitVec 7
  | .default => 0x48
  | .alternate => 0x10

/-- This hardware's parameters (00_scope.md R8): the OPEN ones and `DEV_ADDR` free, the others at their
values. -/
def hardware : Params where
  devAddr := Config.devAddr
  settleMs := Config.settleMs
  resTable := resolution
  resTable_eighth_800 := rfl
  resTable_two_25 := rfl
  kneeLux := 1000
  threshMaxLux := 120000
  threshOverflow := .reject
  deviceInit := Config.deviceInit

end Sys2Proof.Machine
end

