-- ==== Sys2Proof/Machine/State.lean ====
section
/-! DEFINITION. The state of the machine: the block's registers (10_state.md R20 to R24), the transport call in
flight (10_state.md R51), the device's register file (10_state.md R30), the transport history (20_memory.md
R66), and the inputs still to come. -/

namespace Sys2Proof.Machine

open Sys2Proof

/-- `PHASE` (10_state.md R24). -/
inductive Phase where
  | idle | exec | settle
deriving DecidableEq, Repr, Inhabited

/-- The completion statuses (60_exceptions.md R200). -/
inductive Status where
  | ok | invalidSetting | unknownFieldValue | unsupportedConfiguration | outOfRange | busError
  | illegalCommand
deriving DecidableEq, Repr, Inhabited

/-- What can happen at the block's boundary before its next own step. -/
inductive Input where
  /-- The host presents a command word and operand (60_exceptions.md R215), and nothing else happens until the
  block has taken the command's steps. -/
  | present (cw opd : Word32)
  /-- The host presents a command word and operand; the block accepts it and takes the command's steps one at a
  time (00_scope.md R14), so that anything may happen between two of them. -/
  | presentStepwise (cw opd : Word32)
  /-- Block reset (70_reset_and_hazards.md R230); `landed` says whether a write in flight took effect, which
  R232 leaves open. -/
  | reset (landed : Bool)
  /-- The device loses power and powers up again (60_exceptions.md R213). The block cannot detect it. -/
  | powerLoss
  /-- Nothing: the block takes its own step. -/
  | quiet
deriving DecidableEq, Repr, Inhabited

/-- The machine's state. -/
structure State where
  /-- `CW` (10_state.md R21). -/
  cw : Word32
  /-- `OPD` (10_state.md R21). -/
  opd : Word32
  /-- `BUSY` (10_state.md R22). -/
  busy : Bool
  /-- `RSP_VALID` (10_state.md R23). -/
  rspValid : Bool
  /-- `RSP_STATUS` (10_state.md R23). -/
  rspStatus : BitVec 3
  /-- `RSP_RESULT` (10_state.md R23). -/
  rspResult : Word32
  /-- `PHASE` (10_state.md R24). -/
  phase : Phase
  /-- The transport call in flight that has not answered (10_state.md R51, 20_memory.md R68). -/
  inflight : Option BusCall
  /-- The answers that the calls of the running command have had, where the block is between two of its steps
  (00_scope.md R14, 10_state.md R24): `some v` for a call answered `Ok`, `none` for `Err`. The model's own. -/
  progress : Option (List (Option Reg16))
  /-- The result the settle wait will report (40_register_codec.md R116): the model's own. -/
  settleResult : Word32
  /-- The settle wait is over and the completion is the block's next step (70_reset_and_hazards.md R240, 00_scope.md
  R14): the model's own. -/
  settleDone : Bool
  /-- The device's registers as landed writes left them (10_state.md R30, 20_memory.md R67, R75). -/
  device : DeviceRegs
  /-- The transport history, oldest record first (20_memory.md R66). -/
  history : List Event
  /-- The inputs still to come, one taken by each step: the model's own. -/
  inputs : List Input
  /-- The transport's answers still to come, one taken by each call: the model's own. -/
  answers : List Answer
  /-- How many transport calls have started: the model's own. -/
  callIndex : Nat
  /-- How many times the device has lost power: the model's own. -/
  powerCycles : Nat
deriving DecidableEq, Repr

/-- No step of this machine faults: the block has no trap, and every error it names is a completion status
(60_exceptions.md R203, R206). So there is no reason to list, and no claim can hide behind one (safe). -/
inductive Fault where
deriving DecidableEq, Repr

/-- Why a step has no meaning. -/
inductive Refusal where
  /-- Raised by an arm of `exec` whose instruction has no meaning yet; no arm raises it now (safe). -/
  | notModelled (mnemonic : String)
deriving DecidableEq, Repr

/-- The machine right after block reset at the device's first power-up (10_state.md R49): every block register
as the spec says, the device at `DEVICE_INIT`, no call made, no input and no answer listed. -/
def State.reset : State where
  cw := 0
  opd := 0
  busy := false
  rspValid := false
  rspStatus := 0
  rspResult := 0
  phase := .idle
  inflight := none
  progress := none
  settleResult := 0
  settleDone := false
  device := hardware.deviceInit 0
  history := []
  inputs := []
  answers := []
  callIndex := 0
  powerCycles := 0

end Sys2Proof.Machine
end

