-- ==== Sys2Proof/Machine/Flags.lean ====
section
/-! DEFINITION. The block's only flags are `RSP_STATUS` and `RSP_VALID` (10_state.md R27): the status codes. -/

namespace Sys2Proof.Machine

/-- The code of a status (60_exceptions.md R200); code 7 is never produced. -/
def Status.code : Status → BitVec 3
  | .ok => 0
  | .invalidSetting => 1
  | .unknownFieldValue => 2
  | .unsupportedConfiguration => 3
  | .outOfRange => 4
  | .busError => 5
  | .illegalCommand => 6

end Sys2Proof.Machine
end

