-- ==== Sys2Proof/WellFormed.lean ====
section
/-! DEFINITION. Which terms of `Instr` are commands the encoding admits. The operand types carry every other
check; the one left is that SET_FIELD never names the read-only field. -/

namespace Sys2Proof

/-- The last column of the field descriptor table (10_state.md R46): `INT_STATUS` is read-only. -/
def Field.writable : Field → Bool
  | .gain => true
  | .it => true
  | .pers => true
  | .intEn => true
  | .sd => true
  | .psmEn => true
  | .psmMode => true
  | .intStatus => false

/-- A command the encoding admits (30_encoding.md R85: SET_FIELD takes field ids 0 to 6). -/
def Instr.wellFormed : Instr → Bool
  | .encodeField _ _ => true
  | .decodeField _ _ => true
  | .applyField _ _ _ => true
  | .rawToLux _ _ _ => true
  | .luxToRaw _ _ _ => true
  | .setField f _ => f.writable
  | .getField _ => true
  | .readLux => true
  | .readRaw _ => true
  | .setThresh _ _ => true

end Sys2Proof
end

