-- ==== Sys2Proof/Decode.lean ====
section
/-! DEFINITION. Decoding a command word and operand (30_encoding.md R80 to R91), total and rejecting by name,
and after it the encoder (30_encoding.md R94). -/

namespace Sys2Proof

/-- Why a `(CW, OPD)` pair is an IllegalCommand: the checks of 30_encoding.md R89, in their order. -/
inductive Illegal where
  /-- `op` is 0xA to 0xF (30_encoding.md R88 (b)). -/
  | opcode
  /-- `CW[31:14]` is not 0 (30_encoding.md R83). -/
  | reservedBits
  /-- `gcode` or `itcode` is not 0 where it must be (30_encoding.md R86). -/
  | pairBits
  /-- `sel` is outside the command's legal values (30_encoding.md R85). -/
  | select
  /-- an operand bit is not 0 where it must be (30_encoding.md R87). -/
  | operandBits
deriving DecidableEq, Repr

/-- What a pair decodes to: one command, or an IllegalCommand (30_encoding.md R88, R89). -/
inductive Decoded where
  | command (i : Instr)
  | illegal (why : Illegal)
deriving DecidableEq, Repr

/-! ### Codes of the operand types -/

/-- The field id carried in `sel` (30_encoding.md R91). -/
def Field.id : Field → BitVec 4
  | .gain => 0
  | .it => 1
  | .pers => 2
  | .intEn => 3
  | .sd => 4
  | .psmEn => 5
  | .psmMode => 6
  | .intStatus => 7

/-- The field a `sel` value names; 8 to 15 name none (30_encoding.md R85, R91). -/
def Field.ofId (sel : BitVec 4) : Option Field :=
  match sel.toNat with
  | 0 => some .gain
  | 1 => some .it
  | 2 => some .pers
  | 3 => some .intEn
  | 4 => some .sd
  | 5 => some .psmEn
  | 6 => some .psmMode
  | 7 => some .intStatus
  | _ => none

/-- The register address carried in `sel` by READ_RAW (30_encoding.md R85). -/
def RegAddr.sel : RegAddr → BitVec 4
  | .setting => 0
  | .highThresh => 1
  | .lowThresh => 2
  | .powerSave => 3
  | .ambientData => 4
  | .whiteData => 5
  | .intStatus => 6

/-- The register a READ_RAW `sel` names; 7 to 15 name none (30_encoding.md R85). -/
def RegAddr.ofSel (sel : BitVec 4) : Option RegAddr :=
  match sel.toNat with
  | 0 => some .setting
  | 1 => some .highThresh
  | 2 => some .lowThresh
  | 3 => some .powerSave
  | 4 => some .ambientData
  | 5 => some .whiteData
  | 6 => some .intStatus
  | _ => none

/-- The threshold select carried in `sel` by SET_THRESH (30_encoding.md R85). -/
def Threshold.sel : Threshold → BitVec 4
  | .high => 0
  | .low => 1

/-- The threshold a SET_THRESH `sel` names (30_encoding.md R85). -/
def Threshold.ofSel (sel : BitVec 4) : Option Threshold :=
  match sel.toNat with
  | 0 => some .high
  | 1 => some .low
  | _ => none

/-- The gain code (10_state.md R32). -/
def Gain.code : Gain → BitVec 2
  | .g1 => 0
  | .g2 => 1
  | .g1_8 => 2
  | .g1_4 => 3

/-- The gain of a code; all four codes are legal (10_state.md R32). -/
def Gain.ofCode (c : BitVec 2) : Gain :=
  match c.toNat with
  | 0 => .g1
  | 1 => .g2
  | 2 => .g1_8
  | _ => .g1_4

/-! ### The fields of `CW` and `OPD` (30_encoding.md R81, R82) -/

/-- `CW[3:0]`. -/
def cwOp (cw : Word32) : BitVec 4 := cw.extractLsb' 0 4

/-- `CW[7:4]`. -/
def cwSel (cw : Word32) : BitVec 4 := cw.extractLsb' 4 4

/-- `CW[9:8]`. -/
def cwGcode (cw : Word32) : BitVec 2 := cw.extractLsb' 8 2

/-- `CW[13:10]`. -/
def cwItcode (cw : Word32) : BitVec 4 := cw.extractLsb' 10 4

/-- `CW[31:14]`. -/
def cwRsv (cw : Word32) : BitVec 18 := cw.extractLsb' 14 18

/-- `OPD[15:0]`. -/
def opdLow (opd : Word32) : Reg16 := opd.extractLsb' 0 16

/-- `OPD[31:16]`. -/
def opdHigh (opd : Word32) : Reg16 := opd.extractLsb' 16 16

/-! ### The checks (30_encoding.md R89), each before the next -/

/-- `CW[31:14]` must be 0. -/
def checkReserved (cw : Word32) (k : Decoded) : Decoded :=
  if cwRsv cw = 0 then k else .illegal .reservedBits

/-- `gcode` and `itcode` must be 0 for the eight commands that do not read them (30_encoding.md R86). -/
def checkNoPair (cw : Word32) (k : Decoded) : Decoded :=
  if cwGcode cw = 0 ∧ cwItcode cw = 0 then k else .illegal .pairBits

/-- `sel` must be a legal value of the command (30_encoding.md R85). -/
def checkSel {α : Type} (found : Option α) (k : α → Decoded) : Decoded :=
  match found with
  | some a => k a
  | none => .illegal .select

/-- `sel` must be 0 (30_encoding.md R85). -/
def checkNoSel (cw : Word32) (k : Decoded) : Decoded :=
  if cwSel cw = 0 then k else .illegal .select

/-- `OPD[31:16]` must be 0 (30_encoding.md R87). -/
def checkHighZero (opd : Word32) (k : Decoded) : Decoded :=
  if opdHigh opd = 0 then k else .illegal .operandBits

/-- `OPD` must be 0 (30_encoding.md R87). -/
def checkNoOperand (opd : Word32) (k : Decoded) : Decoded :=
  if opd = 0 then k else .illegal .operandBits

/-- The field SET_FIELD may name: ids 0 to 6 (30_encoding.md R85). -/
def writableField (sel : BitVec 4) : Option Field :=
  (Field.ofId sel).filter Field.writable

/-- The decoder (30_encoding.md R89): total on every `(CW, OPD)` pair. -/
def decode (cw opd : Word32) : Decoded :=
  match (cwOp cw).toNat with
  | 0 =>
    checkReserved cw <| checkNoPair cw <| checkSel (Field.ofId (cwSel cw)) fun f =>
      .command (.encodeField f opd)
  | 1 =>
    checkReserved cw <| checkNoPair cw <| checkSel (Field.ofId (cwSel cw)) fun f =>
      checkHighZero opd <| .command (.decodeField f (opdLow opd))
  | 2 =>
    checkReserved cw <| checkNoPair cw <| checkSel (Field.ofId (cwSel cw)) fun f =>
      .command (.applyField f (opdLow opd) (opdHigh opd))
  | 3 =>
    checkReserved cw <| checkNoSel cw <| checkHighZero opd <|
      .command (.rawToLux (Gain.ofCode (cwGcode cw)) (cwItcode cw) (opdLow opd))
  | 4 =>
    checkReserved cw <| checkNoSel cw <|
      .command (.luxToRaw (Gain.ofCode (cwGcode cw)) (cwItcode cw) opd)
  | 5 =>
    checkReserved cw <| checkNoPair cw <| checkSel (writableField (cwSel cw)) fun f =>
      .command (.setField f opd)
  | 6 =>
    checkReserved cw <| checkNoPair cw <| checkSel (Field.ofId (cwSel cw)) fun f =>
      checkNoOperand opd <| .command (.getField f)
  | 7 =>
    checkReserved cw <| checkNoPair cw <| checkNoSel cw <| checkNoOperand opd <| .command .readLux
  | 8 =>
    checkReserved cw <| checkNoPair cw <| checkSel (RegAddr.ofSel (cwSel cw)) fun a =>
      checkNoOperand opd <| .command (.readRaw a)
  | 9 =>
    checkReserved cw <| checkNoPair cw <| checkSel (Threshold.ofSel (cwSel cw)) fun t =>
      .command (.setThresh t opd)
  | _ => .illegal .opcode

/-! ### The encoder (30_encoding.md R94) -/

/-- A command word: `op | (sel << 4) | (gcode << 8) | (itcode << 10)` (30_encoding.md R94). -/
def commandWord (op sel : BitVec 4) (gcode : BitVec 2) (itcode : BitVec 4) : Word32 :=
  op.zeroExtend 32 ||| sel.zeroExtend 32 <<< 4 ||| gcode.zeroExtend 32 <<< 8 |||
    itcode.zeroExtend 32 <<< 10

/-- The opcode of a command (30_encoding.md R84). -/
def Instr.opcode : Instr → BitVec 4
  | .encodeField _ _ => 0
  | .decodeField _ _ => 1
  | .applyField _ _ _ => 2
  | .rawToLux _ _ _ => 3
  | .luxToRaw _ _ _ => 4
  | .setField _ _ => 5
  | .getField _ => 6
  | .readLux => 7
  | .readRaw _ => 8
  | .setThresh _ _ => 9

/-- The pair `(CW, OPD)` of a command (30_encoding.md R94). -/
def encode (i : Instr) : Word32 × Word32 :=
  match i with
  | .encodeField f x => (commandWord i.opcode f.id 0 0, x)
  | .decodeField f v => (commandWord i.opcode f.id 0 0, v.zeroExtend 32)
  | .applyField f v b => (commandWord i.opcode f.id 0 0, b.zeroExtend 32 <<< 16 ||| v.zeroExtend 32)
  | .rawToLux g t raw => (commandWord i.opcode 0 g.code t, raw.zeroExtend 32)
  | .luxToRaw g t lux => (commandWord i.opcode 0 g.code t, lux)
  | .setField f x => (commandWord i.opcode f.id 0 0, x)
  | .getField f => (commandWord i.opcode f.id 0 0, 0)
  | .readLux => (commandWord i.opcode 0 0 0, 0)
  | .readRaw a => (commandWord i.opcode a.sel 0 0, 0)
  | .setThresh sel lux => (commandWord i.opcode sel.sel 0 0, lux)

/-! ### The opcode table's numbering -/

/-- `CW` of an instruction given as one number, bit 0 the least significant bit of `CW`; bits from `nbits` up
are 0. -/
def tableCw (nbits w : Nat) : Word32 := BitVec.ofNat 32 (w % 2 ^ nbits)

/-- `OPD` of an instruction given as one number: the bits from 32 up; bits from `nbits` up are 0. -/
def tableOpd (nbits w : Nat) : Word32 := BitVec.ofNat 32 (w % 2 ^ nbits / 2 ^ 32)

/-- The command the decoder reads from an instruction whose bits are `w`, as spec/opcode_table.json numbers
them. -/
def decodeTableWord (nbits w : Nat) : Option Instr :=
  match decode (tableCw nbits w) (tableOpd nbits w) with
  | .command i => some i
  | .illegal _ => none

end Sys2Proof
end

