-- ==== Sys2Proof/Machine/Operands.lean ====
section
/-! DEFINITION. How operands are read: the field descriptor table (10_state.md R46), the logical-value tables
(40_register_codec.md R111, R112), the helpers `fieldOf` and `put` (40_register_codec.md R110), the legal
integration-time codes (41_lux_engine.md R140), and `signed32` (00_scope.md R9). -/

namespace Sys2Proof.Machine

open Sys2Proof

/-- The address byte of a device register (10_state.md R30). -/
def regByte : RegAddr → RegByte
  | .setting => 0x00
  | .highThresh => 0x01
  | .lowThresh => 0x02
  | .powerSave => 0x03
  | .ambientData => 0x04
  | .whiteData => 0x05
  | .intStatus => 0x06

/-- The registers the block may write (10_state.md R30, 20_memory.md R69). -/
def regWritable : RegAddr → Bool
  | .setting => true
  | .highThresh => true
  | .lowThresh => true
  | .powerSave => true
  | .ambientData => false
  | .whiteData => false
  | .intStatus => false

/-- `reg(f)` (10_state.md R46). -/
def fieldReg : Field → RegAddr
  | .gain => .setting
  | .it => .setting
  | .pers => .setting
  | .intEn => .setting
  | .sd => .setting
  | .psmEn => .powerSave
  | .psmMode => .powerSave
  | .intStatus => .intStatus

/-- `sh(f)` (10_state.md R46). -/
def fieldShift : Field → Nat
  | .gain => 11
  | .it => 6
  | .pers => 4
  | .intEn => 1
  | .sd => 0
  | .psmEn => 0
  | .psmMode => 1
  | .intStatus => 14

/-- `w(f)` (10_state.md R46). -/
def fieldWidth : Field → Nat
  | .gain => 2
  | .it => 4
  | .pers => 2
  | .intEn => 1
  | .sd => 1
  | .psmEn => 1
  | .psmMode => 2
  | .intStatus => 2

/-- `W(f) = 2^w(f) - 1` (10_state.md R46). -/
def fieldMask (f : Field) : Reg16 := BitVec.ofNat 16 (2 ^ fieldWidth f - 1)

/-- `M(f) = W(f) << sh(f)` (10_state.md R46). -/
def placedMask (f : Field) : Reg16 := fieldMask f <<< fieldShift f

/-- `fieldOf(f, v) = (v >> sh(f)) & W(f)` (40_register_codec.md R110). -/
def fieldOf (f : Field) (v : Reg16) : Reg16 := (v >>> fieldShift f) &&& fieldMask f

/-- `put(f, v, c) = (v & ~M(f)) | (c << sh(f))` (40_register_codec.md R110). -/
def put (f : Field) (v c : Reg16) : Reg16 := (v &&& ~~~placedMask f) ||| (c <<< fieldShift f)

/-- The rows of `ENC[f]` (40_register_codec.md R111): documented logical value and its code. -/
def encTable : Field → List (Nat × Nat)
  | .gain => [(8, 0), (16, 1), (1, 2), (2, 3)]
  | .it => [(100, 0), (200, 1), (400, 2), (800, 3), (50, 8), (25, 12)]
  | .pers => [(1, 0), (2, 1), (4, 2), (8, 3)]
  | .intEn => [(0, 0), (1, 1)]
  | .sd => [(0, 0), (1, 1)]
  | .psmEn => [(0, 0), (1, 1)]
  | .psmMode => [(1, 0), (2, 1), (3, 2), (4, 3)]
  | .intStatus => [(0, 0), (1, 1), (2, 2)]

/-- `ENC[f]` (40_register_codec.md R111): the code of a documented logical value. -/
def enc (f : Field) (x : Word32) : Option Reg16 :=
  ((encTable f).find? fun row => row.1 == x.toNat).map fun row => BitVec.ofNat 16 row.2

/-- `DEC[f]` (40_register_codec.md R112), the inverse of `ENC[f]`: the logical value of a code that is not
reserved. -/
def dec (f : Field) (c : Reg16) : Option Word32 :=
  ((encTable f).find? fun row => row.2 == c.toNat).map fun row => BitVec.ofNat 32 row.1

/-- The integration time of a code; the ten other codes are reserved (10_state.md R33, 41_lux_engine.md R140). -/
def intTimeOf (t : BitVec 4) : Option IntTime :=
  match t.toNat with
  | 0 => some .it100
  | 1 => some .it200
  | 2 => some .it400
  | 3 => some .it800
  | 8 => some .it50
  | 12 => some .it25
  | _ => none

/-- The gain a SETTING value holds, `SETTING[12:11]` (10_state.md R32). -/
def settingGain (s : Reg16) : Gain := Gain.ofCode (s.extractLsb' 11 2)

/-- The integration-time code a SETTING value holds, `SETTING[9:6]` (10_state.md R33). -/
def settingItCode (s : Reg16) : BitVec 4 := s.extractLsb' 6 4

/-- `signed32` (00_scope.md R9): a 32-bit pattern as a two's-complement integer. -/
def signed32 (v : Word32) : Int := v.toInt

/-- `zext32` (00_scope.md R9) of a register value. -/
def zext32 (v : Reg16) : Word32 := v.zeroExtend 32

/-- The register a threshold select names (30_encoding.md R85). -/
def thresholdReg : Threshold → RegAddr
  | .high => .highThresh
  | .low => .lowThresh

/-- A register's contents in the device's register file (10_state.md R30). -/
def deviceRead (d : DeviceRegs) : RegAddr → Reg16
  | .setting => d.setting
  | .highThresh => d.highThresh
  | .lowThresh => d.lowThresh
  | .powerSave => d.powerSave
  | .ambientData => d.ambientData
  | .whiteData => d.whiteData
  | .intStatus => d.intStatus

/-- The register file after a write that landed (20_memory.md R64, R75): the three read-only registers keep
their contents. -/
def deviceWrite (d : DeviceRegs) (a : RegAddr) (v : Reg16) : DeviceRegs :=
  match a with
  | .setting => { d with setting := v }
  | .highThresh => { d with highThresh := v }
  | .lowThresh => { d with lowThresh := v }
  | .powerSave => { d with powerSave := v }
  | .ambientData => d
  | .whiteData => d
  | .intStatus => d

end Sys2Proof.Machine
end

