-- ==== Sys2Proof/Machine/Ops.lean ====
section
/-! DEFINITION. The shared operations: acceptance, the two completions, the transport calls, the settle wait,
block reset, device power loss, and the byte order of the bus. -/

namespace Sys2Proof.Machine

open Sys2Proof

/-! ### Acceptance and completion -/

/-- Acceptance of a command (60_exceptions.md R215), in one step. -/
def accept (cw opd : Word32) (s : State) : State :=
  { s with cw := cw, opd := opd, rspValid := false, busy := true, phase := .exec }

/-- `finish(r)` (60_exceptions.md R202), in one step. -/
def finish (r : Word32) (s : State) : State :=
  { s with rspStatus := Status.ok.code, rspResult := r, rspValid := true, phase := .idle, busy := false }

/-- `raise S()` (60_exceptions.md R203), in one step: how every error is taken. -/
def raise (st : Status) (s : State) : State :=
  { s with rspStatus := st.code, rspResult := 0, rspValid := true, phase := .idle, busy := false }

/-! ### The transport -/

/-- The answer the next call gets: the next listed one, else the free one (20_memory.md R66). -/
def nextAnswer (c : BusCall) (s : State) : Answer :=
  match s.answers with
  | a :: _ => a
  | [] => Config.freeAnswer s.callIndex s.history c

/-- A call starts: its answer is taken from the list and the call is counted. -/
def startCall (s : State) : State :=
  { s with answers := s.answers.tail, callIndex := s.callIndex + 1 }

/-- A record is appended to the history (20_memory.md R66). -/
def record (e : Event) (s : State) : State :=
  { s with history := s.history ++ [e] }

/-- The record of a read (20_memory.md R60, R66). -/
def readEvent (a : RegAddr) (answer : Option Reg16) : Event :=
  .read (devAddrBits hardware.devAddr) (regByte a) answer

/-- The record of a write (20_memory.md R60, R66). -/
def writeEvent (a : RegAddr) (v : Reg16) (ok : Bool) : Event :=
  .write (devAddrBits hardware.devAddr) (regByte a) v ok

/-- The block waits for a call that never answers (20_memory.md R68): stuck in EXEC. -/
def hang (c : BusCall) (s : State) : State :=
  { s with inflight := some c, phase := .exec, busy := true }

/-- A write lands in the device (20_memory.md R64). -/
def land (a : RegAddr) (v : Reg16) (s : State) : State :=
  { s with device := deviceWrite s.device a v }

/-- What a read brings: a value, a bus error, or nothing ever (20_memory.md R66, R68). -/
inductive Reply where
  | ok (v : Reg16)
  | err
  | never
deriving DecidableEq, Repr

/-- What the answer to a read brings; `held` is the device's register (20_memory.md R75). -/
def readReply (a : RegAddr) (s : State) : Reply :=
  match nextAnswer (.read a) s with
  | .ok v => .ok v
  | .err => .err
  | .silent => .never
  | .held => .ok (deviceRead s.device a)

/-- What the answer to a write brings; the value of an `ok` is the value written. -/
def writeReply (a : RegAddr) (v : Reg16) (s : State) : Reply :=
  match nextAnswer (.write a v) s with
  | .ok _ => .ok v
  | .err => .err
  | .silent => .never
  | .held => .ok v

/-- One read call: `ok` or `failed` goes on from its record, and an unanswered one leaves the block stuck. -/
def callRead (a : RegAddr) (s : State) (ok : Reg16 → State → State) (failed : State → State) : State :=
  match readReply a s with
  | .ok v => ok v (record (readEvent a (some v)) (startCall s))
  | .err => failed (record (readEvent a none) (startCall s))
  | .never => hang (.read a) (startCall s)

/-- One write call: `ok` goes on where it has landed, `failed` where it has not (20_memory.md R67), and an
unanswered one leaves the block stuck. -/
def callWrite (a : RegAddr) (v : Reg16) (s : State) (ok failed : State → State) : State :=
  match writeReply a v s with
  | .ok _ => ok (land a v (record (writeEvent a v true) (startCall s)))
  | .err => failed (record (writeEvent a v false) (startCall s))
  | .never => hang (.write a v) (startCall s)

/-- `case MemRead(a, 2) of Err -> raise BusError() | Ok(v) -> k v` (00_scope.md R11, R12). -/
def memRead (a : RegAddr) (s : State) (k : Reg16 → State → State) : State :=
  callRead a s k (raise .busError)

/-- `case MemWrite(a, 2, v) of Err -> raise BusError() | Ok -> k` (00_scope.md R11, R12). -/
def memWrite (a : RegAddr) (v : Reg16) (s : State) (k : State → State) : State :=
  callWrite a v s k (raise .busError)

/-! ### The settle wait -/

/-- The block enters the settle wait (70_reset_and_hazards.md R240), holding the result it will report. -/
def enterSettle (r : Word32) (s : State) : State :=
  { s with phase := .settle, busy := true, settleResult := r, settleDone := false }

/-- The settle wait (70_reset_and_hazards.md R240): one step, recorded. -/
def waitSettle (s : State) : State :=
  { s with history := s.history ++ [.settle], settleDone := true }

/-- The completion after the settle wait (70_reset_and_hazards.md R240). -/
def endSettle (s : State) : State := finish s.settleResult s

/-! ### A command between two of its steps (00_scope.md R14) -/

/-- The command has had these answers, and its next step is still to come. -/
def awaitStep (answers : List (Option Reg16)) (s : State) : State :=
  { s with progress := some answers }

/-- The command has no step between calls to come. -/
def leaveSteps (s : State) : State := { s with progress := none }

/-! ### Reset and power loss -/

/-- The device's registers after a reset of the block: unchanged (70_reset_and_hazards.md R233), but for a
write in flight that landed (70_reset_and_hazards.md R232). DESIGN CHOICE: where the device has lost power since that
write began, it lands on the contents after the loss, an order the spec leaves open (log entry 21). -/
def deviceAfterReset (landed : Bool) (s : State) : DeviceRegs :=
  match s.inflight, landed with
  | some (.write a v), true => deviceWrite s.device a v
  | _, _ => s.device

/-- Block reset (70_reset_and_hazards.md R230), in one step; it makes no transport call (R231). -/
def blockReset (landed : Bool) (s : State) : State :=
  { s with
    phase := .idle, busy := false, rspValid := false, rspStatus := 0, rspResult := 0, cw := 0, opd := 0
    inflight := none, progress := none, settleResult := 0, settleDone := false
    device := deviceAfterReset landed s }

/-- The device loses power and powers up with unknown contents (60_exceptions.md R213, 10_state.md R48). A
call in flight stays in flight (DESIGN CHOICE, log entry 21). -/
def losePower (s : State) : State :=
  { s with device := hardware.deviceInit (s.powerCycles + 1), powerCycles := s.powerCycles + 1 }

/-! ### The byte order of the two-wire bus (20_memory.md R61) -/

/-- The bytes of a write after the device address: register address, low byte, high byte. -/
def writeBytes (a : RegByte) (v : Reg16) : List Byte :=
  [a, v.extractLsb' 0 8, v.extractLsb' 8 8]

/-- The value of a read whose bytes arrive as `b0`, then `b1`: `b0 | (b1 << 8)`. -/
def readValue (b0 b1 : Byte) : Reg16 := b0.zeroExtend 16 ||| (b1.zeroExtend 16 <<< 8)

end Sys2Proof.Machine
end

