-- ==== Sys2Proof/Machine/Program.lean ====
section
/-! DEFINITION. A command as the sequence of its steps (00_scope.md R11, R14): its transport calls, each
continued by the value read, and its end. Each command has one program, and both ways to run it are given here
once: all its steps in one step of the machine, and one step at a time. -/

namespace Sys2Proof.Machine

open Sys2Proof

/-- What a command still has to do. -/
inductive Program where
  /-- `finish(r)`. -/
  | finish (r : Word32)
  /-- `raise S()`. -/
  | raise (st : Status)
  /-- `Settle()`, then `finish(r)` (70_reset_and_hazards.md R240). -/
  | settle (r : Word32)
  /-- `MemRead(a, 2)`: an `Err` raises BusError, a value goes on (00_scope.md R12). -/
  | read (a : RegAddr) (next : Reg16 → Program)
  /-- `MemWrite(a, 2, v)`: an `Err` raises BusError, an `Ok` goes on (00_scope.md R12). -/
  | write (a : RegAddr) (v : Reg16) (next : Program)

/-- All steps of a program, up to its completion, the settle wait, or a call that is never answered. -/
def Program.run : Program → State → State
  | .finish r, s => Machine.finish r s
  | .raise st, s => Machine.raise st s
  | .settle r, s => enterSettle r s
  | .read a next, s => memRead a s fun v s₁ => (next v).run s₁
  | .write a v next, s => memWrite a v s fun s₁ => next.run s₁

/-- What is left of a program after one more answer to its call: `none` is an `Err` (00_scope.md R12). -/
def Program.answered (p : Program) (answer : Option Reg16) : Program :=
  match p, answer with
  | .read _ next, some v => next v
  | .write _ _ next, some _ => next
  | .read _ _, none => .raise .busError
  | .write _ _ _, none => .raise .busError
  | .finish r, _ => .finish r
  | .raise st, _ => .raise st
  | .settle r, _ => .settle r

/-- What is left of a program after the answers its calls have had, the first one first. -/
def Program.after (p : Program) (answers : List (Option Reg16)) : Program :=
  answers.foldl Program.answered p

/-- The next one step of a program whose calls have had the given answers: a call, the entry into the settle
wait, or the completion. -/
def Program.nextStep (p : Program) (answers : List (Option Reg16)) (s : State) : State :=
  match p with
  | .finish r => Machine.finish r (leaveSteps s)
  | .raise st => Machine.raise st (leaveSteps s)
  | .settle r => enterSettle r (leaveSteps s)
  | .read a _ =>
    callRead a s (fun v s₁ => awaitStep (answers ++ [some v]) s₁) (awaitStep (answers ++ [none]))
  | .write a v _ =>
    callWrite a v s (awaitStep (answers ++ [some v])) (awaitStep (answers ++ [none]))

end Sys2Proof.Machine
end

