-- ==== Sys2Proof/Machine/LuxEngine.lean ====
section
/-! DEFINITION. The lux engine (41_lux_engine.md): the exact arithmetic, RAW2LUX and READ_LUX. -/

namespace Sys2Proof.Machine

open Sys2Proof

/-- The uncompensated integer lux `L = floor(raw * R / 10000)` (41_lux_engine.md R142). -/
def linearLux (p : Params) (raw : Reg16) (g : Gain) (t : IntTime) : Nat :=
  raw.toNat * p.resTable g t / 10000

/-- The numerator `P(L)` of the compensation polynomial (41_lux_engine.md R143). -/
def compNumerator (l : Int) : Int :=
  60135 * l ^ 4 - 939240000 * l ^ 3 + 8148800000000 * l ^ 2 + 100230000000000000 * l

/-- `comp(L) = floor(P(L) / 10^17)` (41_lux_engine.md R143). -/
def comp (l : Nat) : Nat := (compNumerator l / 10 ^ 17).toNat

/-- The lux of a count under a valid pair (41_lux_engine.md R144): compensated above the knee. -/
def luxValue (p : Params) (raw : Reg16) (g : Gain) (t : IntTime) : Nat :=
  if linearLux p raw g t > p.kneeLux then comp (linearLux p raw g t) else linearLux p raw g t

/-- `luxOf` (41_lux_engine.md R144). -/
def luxOf (p : Params) (raw : Reg16) (g : Gain) (t : BitVec 4) : Except Status Nat :=
  match intTimeOf t with
  | some it => .ok (luxValue p raw g it)
  | none => .error .unsupportedConfiguration

/-- RAW2LUX (41_lux_engine.md R145). -/
def rawToLuxProgram (g : Gain) (t : BitVec 4) (raw : Reg16) : Program :=
  match luxOf hardware raw g t with
  | .ok lux => .finish (BitVec.ofNat 32 lux)
  | .error st => .raise st

/-- READ_LUX (41_lux_engine.md R146): with a reserved IT code, AMBIENT_DATA is not read. -/
def readLuxProgram : Program :=
  .read .setting fun v =>
    match intTimeOf (settingItCode v) with
    | some it =>
      .read .ambientData fun a => .finish (BitVec.ofNat 32 (luxValue hardware a (settingGain v) it))
    | none => .raise .unsupportedConfiguration

/-- RAW2LUX, all its steps (41_lux_engine.md R145). -/
def execRawToLux (g : Gain) (t : BitVec 4) (raw : Reg16) (s : State) :
    Host.Outcome State Fault Refusal :=
  .next ((rawToLuxProgram g t raw).run s)

/-- READ_LUX, all its steps (41_lux_engine.md R146). -/
def execReadLux (s : State) : Host.Outcome State Fault Refusal := .next (readLuxProgram.run s)

end Sys2Proof.Machine
end

