-- ==== Sys2Proof/Machine/RegisterCodec.lean ====
section
/-! DEFINITION. The register codec's commands (40_register_codec.md): ENCODE, DECODE, APPLY, SET_FIELD,
GET_FIELD, READ_RAW. -/

namespace Sys2Proof.Machine

open Sys2Proof

/-- The end of DECODE and GET_FIELD: the logical value of a field of `v` (40_register_codec.md R114, R117). -/
def reportField (f : Field) (v : Reg16) : Program :=
  match dec f (fieldOf f v) with
  | some x => .finish x
  | none => .raise .unknownFieldValue

/-- ENCODE (40_register_codec.md R113). -/
def encodeProgram (f : Field) (x : Word32) : Program :=
  match enc f x with
  | some c => .finish (zext32 c)
  | none => .raise .invalidSetting

/-- DECODE (40_register_codec.md R114). -/
def decodeProgram (f : Field) (v : Reg16) : Program := reportField f v

/-- APPLY (40_register_codec.md R115): only the width of the code is checked. -/
def applyProgram (f : Field) (v b : Reg16) : Program :=
  if b ≤ fieldMask f then .finish (zext32 (put f v b)) else .raise .invalidSetting

/-- The end of SET_FIELD once its write of `nv` answered `Ok`: the settle wait after a power-on write
(70_reset_and_hazards.md R240, R241), else completion. -/
def afterFieldWrite (f : Field) (c nv : Reg16) : Program :=
  if f = .sd ∧ c = 0 then .settle (zext32 nv) else .finish (zext32 nv)

/-- The transport part of SET_FIELD (40_register_codec.md R116): read, put, write, always in this order. -/
def modifyField (f : Field) (c : Reg16) : Program :=
  .read (fieldReg f) fun v => .write (fieldReg f) (put f v c) (afterFieldWrite f c (put f v c))

/-- SET_FIELD (40_register_codec.md R116). The read-only field is an IllegalCommand (30_encoding.md R85),
though no encoding of SET_FIELD names it. -/
def setFieldProgram (f : Field) (x : Word32) : Program :=
  if regWritable (fieldReg f) then
    match enc f x with
    | some c => modifyField f c
    | none => .raise .invalidSetting
  else .raise .illegalCommand

/-- GET_FIELD (40_register_codec.md R117). -/
def getFieldProgram (f : Field) : Program := .read (fieldReg f) (reportField f)

/-- READ_RAW (40_register_codec.md R118). -/
def readRawProgram (a : RegAddr) : Program := .read a fun v => .finish (zext32 v)

/-- ENCODE, all its steps (40_register_codec.md R113). -/
def execEncode (f : Field) (x : Word32) (s : State) : Host.Outcome State Fault Refusal :=
  .next ((encodeProgram f x).run s)

/-- DECODE, all its steps (40_register_codec.md R114). -/
def execDecode (f : Field) (v : Reg16) (s : State) : Host.Outcome State Fault Refusal :=
  .next ((decodeProgram f v).run s)

/-- APPLY, all its steps (40_register_codec.md R115). -/
def execApply (f : Field) (v b : Reg16) (s : State) : Host.Outcome State Fault Refusal :=
  .next ((applyProgram f v b).run s)

/-- SET_FIELD, all its steps up to the settle wait (40_register_codec.md R116). -/
def execSetField (f : Field) (x : Word32) (s : State) : Host.Outcome State Fault Refusal :=
  .next ((setFieldProgram f x).run s)

/-- GET_FIELD, all its steps (40_register_codec.md R117). -/
def execGetField (f : Field) (s : State) : Host.Outcome State Fault Refusal :=
  .next ((getFieldProgram f).run s)

/-- READ_RAW, all its steps (40_register_codec.md R118). -/
def execReadRaw (a : RegAddr) (s : State) : Host.Outcome State Fault Refusal :=
  .next ((readRawProgram a).run s)

end Sys2Proof.Machine
end

