-- ==== Sys2Proof/Machine/ThresholdMapper.lean ====
section
/-! DEFINITION. The threshold mapper (42_threshold_mapper.md): lux to raw counts, LUX2RAW and SET_THRESH. -/

namespace Sys2Proof.Machine

open Sys2Proof

/-- A threshold lux value in range (42_threshold_mapper.md R170). -/
def luxInRange (p : Params) (lux : Int) : Bool :=
  decide (0 ≤ lux) && decide (lux ≤ p.threshMaxLux)

/-- `q = floor(lux * 10000 / R)` of an in-range lux (42_threshold_mapper.md R171). -/
def rawCount (p : Params) (lux : Int) (g : Gain) (t : IntTime) : Nat :=
  lux.toNat * 10000 / p.resTable g t

/-- A count that must fit 16 bits (42_threshold_mapper.md R172). -/
def fitCount (o : ThreshOverflow) (q : Nat) : Except Status Reg16 :=
  if q ≤ 0xFFFF then .ok (BitVec.ofNat 16 q)
  else
    match o with
    | .reject => .error .outOfRange
    | .saturate => .ok 0xFFFF

/-- `rawOf` (42_threshold_mapper.md R173): range, then pair, then overflow. -/
def rawOf (p : Params) (lux : Int) (g : Gain) (t : BitVec 4) : Except Status Reg16 :=
  if luxInRange p lux then
    match intTimeOf t with
    | some it => fitCount p.threshOverflow (rawCount p lux g it)
    | none => .error .unsupportedConfiguration
  else .error .outOfRange

/-- LUX2RAW (42_threshold_mapper.md R173). -/
def luxToRawProgram (g : Gain) (t : BitVec 4) (lux : Word32) : Program :=
  match rawOf hardware (signed32 lux) g t with
  | .ok q => .finish (zext32 q)
  | .error st => .raise st

/-- SET_THRESH (42_threshold_mapper.md R174): the range is checked before any transport call. -/
def setThreshProgram (sel : Threshold) (lux : Word32) : Program :=
  if luxInRange hardware (signed32 lux) then
    .read .setting fun v =>
      match rawOf hardware (signed32 lux) (settingGain v) (settingItCode v) with
      | .ok q => .write (thresholdReg sel) q (.finish (zext32 q))
      | .error st => .raise st
  else .raise .outOfRange

/-- LUX2RAW, all its steps (42_threshold_mapper.md R173). -/
def execLuxToRaw (g : Gain) (t : BitVec 4) (lux : Word32) (s : State) :
    Host.Outcome State Fault Refusal :=
  .next ((luxToRawProgram g t lux).run s)

/-- SET_THRESH, all its steps (42_threshold_mapper.md R174). -/
def execSetThresh (sel : Threshold) (lux : Word32) (s : State) : Host.Outcome State Fault Refusal :=
  .next ((setThreshProgram sel lux).run s)

end Sys2Proof.Machine
end

