-- ==== Sys2Proof/Machine/Dispatch.lean ====
section
/-! DEFINITION. One arm per command (30_encoding.md R84). -/

namespace Sys2Proof.Machine

open Sys2Proof

def exec (i : Instr) (s : State) : Host.Outcome State Fault Refusal :=
  match i with
  | .encodeField f x => Sys2Proof.Machine.execEncode f x s
  | .decodeField f v => Sys2Proof.Machine.execDecode f v s
  | .applyField f v b => Sys2Proof.Machine.execApply f v b s
  | .rawToLux g t raw => Sys2Proof.Machine.execRawToLux g t raw s
  | .luxToRaw g t lux => Sys2Proof.Machine.execLuxToRaw g t lux s
  | .setField f x => Sys2Proof.Machine.execSetField f x s
  | .getField f => Sys2Proof.Machine.execGetField f s
  | .readLux => Sys2Proof.Machine.execReadLux s
  | .readRaw a => Sys2Proof.Machine.execReadRaw a s
  | .setThresh sel lux => Sys2Proof.Machine.execSetThresh sel lux s

end Sys2Proof.Machine
end

