-- ==== Sys2Proof/Machine/Protocol.lean ====
section
/-! DEFINITION. The host protocol (60_exceptions.md R215 to R217): what one step of the machine does with the
next input, and how a command is placed at the port. -/

namespace Sys2Proof.Machine

open Sys2Proof

/-- An accepted command runs: its decoded meaning, or IllegalCommand (30_encoding.md R83, R88). -/
def runCommand (cw opd : Word32) (s : State) : Host.Outcome State Fault Refusal :=
  match decode cw opd with
  | .command i => exec i (accept cw opd s)
  | .illegal _ => .next (raise .illegalCommand (accept cw opd s))

/-- The steps of each command, for a block that takes them one at a time (00_scope.md R14). -/
def programOf : Instr → Program
  | .encodeField f x => encodeProgram f x
  | .decodeField f v => decodeProgram f v
  | .applyField f v b => applyProgram f v b
  | .rawToLux g t raw => rawToLuxProgram g t raw
  | .luxToRaw g t lux => luxToRawProgram g t lux
  | .setField f x => setFieldProgram f x
  | .getField f => getFieldProgram f
  | .readLux => readLuxProgram
  | .readRaw a => readRawProgram a
  | .setThresh sel lux => setThreshProgram sel lux

/-- The steps of the command in `CW` and `OPD`: of its decoded meaning, or IllegalCommand (30_encoding.md R83,
R88). -/
def latchedProgram (s : State) : Program :=
  match decode s.cw s.opd with
  | .command i => programOf i
  | .illegal _ => .raise .illegalCommand

/-- A presentation: accepted only while `BUSY = 0`, else without effect (60_exceptions.md R215). -/
def takePresent (cw opd : Word32) (s : State) : Host.Outcome State Fault Refusal :=
  if s.busy then .next s else runCommand cw opd s

/-- A presentation to a block that takes the command's steps one at a time: acceptance is its first step
(60_exceptions.md R215). -/
def takePresentStepwise (cw opd : Word32) (s : State) : State :=
  if s.busy then s else awaitStep [] (accept cw opd s)

/-- The block's next step in EXEC: the running command's, unless a call waits for its answer for ever
(20_memory.md R68). -/
def execStep (s : State) : State :=
  match s.inflight, s.progress with
  | none, some answers => ((latchedProgram s).after answers).nextStep answers s
  | none, none => s
  | some _, _ => s

/-- The block's own step: the running command's next step (00_scope.md R14); the settle wait and the completion
after it (70_reset_and_hazards.md R240); an idle block waits for the host (70_reset_and_hazards.md R230). -/
def ownStep (s : State) : State :=
  match s.phase with
  | .idle => s
  | .exec => execStep s
  | .settle => if s.settleDone then endSettle s else waitSettle s

/-- What one input does. -/
def takeInput (e : Input) (s : State) : Host.Outcome State Fault Refusal :=
  match e with
  | .present cw opd => takePresent cw opd s
  | .presentStepwise cw opd => .next (takePresentStepwise cw opd s)
  | .reset landed => .next (blockReset landed s)
  | .powerLoss => .next (losePower s)
  | .quiet => .next (ownStep s)

/-- One step: the next input is taken; where none is listed, the block takes its own step. -/
def advance (s : State) : Host.Outcome State Fault Refusal :=
  match s.inputs with
  | e :: rest => takeInput e { s with inputs := rest }
  | [] => .next (ownStep s)

/-- The block idle with a command presented next, so that the next step accepts and runs it. -/
def presentNext (cw opd : Word32) (s : State) : State :=
  { s with
    inputs := .present cw opd :: s.inputs, busy := false, phase := .idle, inflight := none, progress := none }

end Sys2Proof.Machine
end

