-- ==== Sys2Proof/Machine/Step.lean ====
section
/-! DEFINITION. The step function. -/

namespace Sys2Proof.Machine

open Sys2Proof

/-- One step of the machine (Machine/Protocol.lean). -/
def step (s : State) : Host.Outcome State Fault Refusal := advance s

/-- `s` with an instruction, numbered as spec/opcode_table.json numbers its bits, presented at the command port
of an idle block: the very next step accepts and runs it. -/
def State.withFetchWord (s : State) (nbits w : Nat) : State :=
  presentNext (tableCw nbits w) (tableOpd nbits w) s

end Sys2Proof.Machine
end

