-- ==== Sys2Proof/Safety.lean ====
section
/-! DEFINITION. What claims speak of: the invariant every step keeps, the statuses each command may complete
with, what the host can see, and the observation of a run. -/

namespace Sys2Proof.Machine

open Sys2Proof

/-- A record the block may make (20_memory.md R69): the call carries `DEV_ADDR`, a read names one of the seven
registers, a write one of the four writable ones. -/
def goodEvent : Event → Prop
  | .read dev a _ => dev = devAddrBits hardware.devAddr ∧ a ≤ 0x06
  | .write dev a _ _ => dev = devAddrBits hardware.devAddr ∧ a ≤ 0x03
  | .settle => True

/-- The invariant of the machine. -/
structure Inv (s : State) : Prop where
  /-- `BUSY = 1` exactly when `PHASE` is not `IDLE` (10_state.md R24). -/
  busy_iff : s.busy = true ↔ s.phase ≠ .idle
  /-- A valid response is there only while no command runs (10_state.md R23). -/
  valid_idle : s.rspValid = true → s.busy = false
  /-- Status code 7 is never produced (60_exceptions.md R200). -/
  status_code : s.rspStatus ≠ 7
  /-- The result is 0 on every status other than OK (30_encoding.md R96). -/
  error_result : s.rspStatus ≠ 0 → s.rspResult = 0
  /-- In EXEC, and only there, a call is in flight or the running command has a step to come (10_state.md R24,
  R51). -/
  exec_iff : s.phase = .exec ↔ s.inflight.isSome = true ∨ s.progress.isSome = true
  /-- A write in flight names a writable register (20_memory.md R69). -/
  inflight_writable : ∀ a v, s.inflight = some (.write a v) → regWritable a = true
  /-- Every record is one the block may make (20_memory.md R69). -/
  history_good : ∀ e ∈ s.history, goodEvent e

/-- The statuses a legally encoded command may complete with (60_exceptions.md R201, less the IllegalCommand
column, which is the decoder's). -/
def allowedStatuses : Instr → List Status
  | .encodeField _ _ => [.ok, .invalidSetting]
  | .decodeField _ _ => [.ok, .unknownFieldValue]
  | .applyField _ _ _ => [.ok, .invalidSetting]
  | .rawToLux _ _ _ => [.ok, .unsupportedConfiguration]
  | .luxToRaw _ _ _ => [.ok, .unsupportedConfiguration, .outOfRange]
  | .setField _ _ => [.ok, .invalidSetting, .busError]
  | .getField _ => [.ok, .unknownFieldValue, .busError]
  | .readLux => [.ok, .unsupportedConfiguration, .busError]
  | .readRaw _ => [.ok, .busError]
  | .setThresh _ _ => [.ok, .unsupportedConfiguration, .outOfRange, .busError]

/-- The registers a command reads, in order, when every call answers `Ok` and no check fails (20_memory.md
R69). -/
def readsOf : Instr → List RegAddr
  | .encodeField _ _ => []
  | .decodeField _ _ => []
  | .applyField _ _ _ => []
  | .rawToLux _ _ _ => []
  | .luxToRaw _ _ _ => []
  | .setField f _ => [fieldReg f]
  | .getField f => [fieldReg f]
  | .readLux => [.setting, .ambientData]
  | .readRaw a => [a]
  | .setThresh _ _ => [.setting]

/-- The register a command writes, if any (20_memory.md R69). -/
def writeOf : Instr → Option RegAddr
  | .encodeField _ _ => none
  | .decodeField _ _ => none
  | .applyField _ _ _ => none
  | .rawToLux _ _ _ => none
  | .luxToRaw _ _ _ => none
  | .setField f _ => some (fieldReg f)
  | .getField _ => none
  | .readLux => none
  | .readRaw _ => none
  | .setThresh sel _ => some (thresholdReg sel)

/-- The register an address byte names (10_state.md R30). -/
def regOfByte (a : RegByte) : Option RegAddr :=
  match a.toNat with
  | 0 => some .setting
  | 1 => some .highThresh
  | 2 => some .lowThresh
  | 3 => some .powerSave
  | 4 => some .ambientData
  | 5 => some .whiteData
  | 6 => some .intStatus
  | _ => none

/-- What one record does to the device's registers: a write answered `Ok` lands, nothing else changes them
(20_memory.md R67, R71). -/
def replayEvent (d : DeviceRegs) : Event → DeviceRegs
  | .write _ a v true =>
    match regOfByte a with
    | some r => deviceWrite d r v
    | none => d
  | .write _ _ _ false => d
  | .read _ _ _ => d
  | .settle => d

/-! ### The vocabulary of the statements -/

/-- The kind and register address of a call's record: `true` for a write; the settle event is no call. -/
def callShape : Event → Option (Bool × RegByte)
  | .read _ a _ => some (false, a)
  | .write _ a _ _ => some (true, a)
  | .settle => none

/-- Every call a command may make, in order (20_memory.md R69): its reads, then its write. -/
def callTemplate (i : Instr) : List (Bool × RegByte) :=
  ((readsOf i).map fun a => (false, regByte a)) ++ ((writeOf i).toList.map fun a => (true, regByte a))

/-- The answer `a` brings the value `v` to a read of register `r` in a state with device registers `d`. -/
def bringsValue (d : DeviceRegs) (r : RegAddr) (a : Answer) (v : Reg16) : Prop :=
  a = .ok v ∨ (a = .held ∧ v = deviceRead d r)

/-- The answer `a` to a write is `Ok`. -/
def acceptsWrite (a : Answer) : Prop := a = .held ∨ ∃ w, a = .ok w

/-- A state in which a command has completed with a status code and a result after the calls recorded by `ev`:
those calls took one answer each, and nothing else of `s` has changed. -/
def completedAfter (s : State) (ev : List Event) (code : BitVec 3) (result : Word32) : State :=
  { s with
    history := s.history ++ ev, answers := s.answers.drop ev.length
    callIndex := s.callIndex + ev.length
    rspStatus := code, rspResult := result, rspValid := true, phase := .idle, busy := false }

/-- A state in which a command is stuck on call `c` after the calls recorded by `ev` (20_memory.md R68). -/
def stuckAfter (s : State) (ev : List Event) (c : BusCall) : State :=
  { s with
    history := s.history ++ ev, answers := s.answers.drop (ev.length + 1)
    callIndex := s.callIndex + (ev.length + 1), inflight := some c, phase := .exec, busy := true }

/-! ### What the host sees -/

/-- What the host can read (10_state.md R25): `BUSY` and the response registers. -/
structure HostView where
  busy : Bool
  rspValid : Bool
  rspStatus : BitVec 3
  rspResult : Word32
deriving DecidableEq, Repr

/-- The host's view of a state (10_state.md R25). -/
def State.hostView (s : State) : HostView :=
  { busy := s.busy, rspValid := s.rspValid, rspStatus := s.rspStatus, rspResult := s.rspResult }

/-- A run has ended (60_exceptions.md R217): no further input, and `BUSY = 0`. -/
def State.runEnded (s : State) : Bool := s.inputs.isEmpty && !s.busy

/-- The next step of the machine may complete a command: an accepted presentation, or a busy block's own step. -/
def State.runsCommand (s : State) : Bool :=
  match s.inputs with
  | .present _ _ :: _ => !s.busy
  | .presentStepwise _ _ :: _ => false
  | .reset _ :: _ => false
  | .powerLoss :: _ => false
  | .quiet :: _ => s.busy
  | [] => s.busy

/-- The state after the block's own two steps that end a settle wait: the wait and the completion. A state in
which no command runs, or one is stuck, is its own. -/
def State.afterSettle (s : State) : State := ownStep (ownStep s)

/-- The observation of a run of `n` steps (60_exceptions.md R217): the responses, in order, and the transport
history at its end. -/
def observe : Nat → State → List HostView × List Event
  | 0, s => ([], s.history)
  | n + 1, s =>
    match step s with
    | .next t =>
      if s.runsCommand && t.rspValid then
        (t.hostView :: (observe n t).1, (observe n t).2)
      else observe n t
    | .fault _ => ([], s.history)
    | .refused _ => ([], s.history)

end Sys2Proof.Machine
end

