-- ==== Sys2Proof/Certificates/Slice0/Obligations.lean ====
section
/-! DEFINITION. The statements for the provers, in the order of the spec's files. A statement that rests on a
choice of the model's names the log entry in its docstring. Two choices stand behind all of them: `device` holds the
device's registers as the model keeps them (log entry 3), and `exec` runs all of a command's steps (log entry 4). -/

open Sys2Proof Sys2Proof.Machine

/-! ### Reset and the host protocol -/

/-- 10_state.md R49: the machine after reset holds the stated values of the block's seven registers. -/
def Obligations.ResetStateHoldsStatedValues : Prop :=
  State.reset.phase = .idle ∧ State.reset.busy = false ∧ State.reset.rspValid = false ∧
  State.reset.rspStatus = 0 ∧ State.reset.rspResult = 0 ∧ State.reset.cw = 0 ∧ State.reset.opd = 0

/-- 70_reset_and_hazards.md R230, R231, R233: the reset step sets every block register, makes no transport call,
leaves the device registers where no write is in flight, and then the block waits. That no call in flight and no step
of a command remain is said in the model's own fields (log entry 4); that an idle block without input takes a step to
the same state (log entry 6) and that the history is kept over a reset (log entry 10) are the model's too. -/
def Obligations.BlockResetSetsEveryBlockRegister : Prop :=
  ∀ (s : State) (landed : Bool) (rest : List Input), s.inputs = .reset landed :: rest →
    ∃ t, step s = .next t ∧ t.phase = .idle ∧ t.busy = false ∧ t.rspValid = false ∧
      t.rspStatus = 0 ∧ t.rspResult = 0 ∧ t.cw = 0 ∧ t.opd = 0 ∧
      t.history = s.history ∧ t.callIndex = s.callIndex ∧ t.answers = s.answers ∧
      t.inputs = rest ∧ t.powerCycles = s.powerCycles ∧ (rest = [] → step t = .next t) ∧
      t.inflight = none ∧ t.progress = none ∧
      ((∀ a v, s.inflight ≠ some (.write a v)) → t.device = s.device)

/-- 70_reset_and_hazards.md R232, 00_scope.md R14: a reset while busy ends the command without a response, between
any two of its steps: the calls it has made stay in the history. A write in flight has landed or has not, both
admitted, as a bit of the reset event says (log entry 8), also where the device has lost power in between (log entry
21); nothing but a reset leaves the stuck state. That the history is kept over the reset is the model's choice (log
entry 10; R231 gives that the reset adds no call to it); that a stuck block's step leaves it as it is, is the model's form of R68 (log entry 6). -/
def Obligations.ResetWhileBusyAdmitsBothOutcomes : Prop :=
  (∀ (s : State) (landed : Bool) (rest : List Input), s.inputs = .reset landed :: rest →
    s.busy = true →
    ∃ t, step s = .next t ∧ t.busy = false ∧ t.rspValid = false ∧ t.phase = .idle ∧ t.history = s.history) ∧
  (∀ (s : State) (landed : Bool) (rest : List Input) (a : RegAddr) (v : Reg16),
    s.inputs = .reset landed :: rest → s.inflight = some (.write a v) →
    ∃ t, step s = .next t ∧ t.device = if landed then deviceWrite s.device a v else s.device) ∧
  (∀ s : State, s.phase = .exec → s.busy = true → s.inflight.isSome = true →
    (∀ landed rest, s.inputs ≠ .reset landed :: rest) →
    ∃ t, step s = .next t ∧ t.phase = .exec ∧ t.busy = true ∧ t.inflight = s.inflight ∧
      t.rspValid = s.rspValid ∧ t.history = s.history)

/-- 60_exceptions.md R215: a command presented while `BUSY = 0` is accepted, in the one step that sets `CW`,
`OPD`, `RSP_VALID`, `BUSY` and `PHASE`, and its rule runs; while `BUSY = 1` a presentation has no effect. That one
step of the machine runs the whole command, or accepts it alone where the block is to take the command's steps one
at a time (00_scope.md R14), as the kind of the input says, is the model's choice (log entry 4). -/
def Obligations.StepRunsPresentedCommand : Prop :=
  (∀ (s : State) (cw opd : Word32) (rest : List Input) (i : Instr),
    s.inputs = .present cw opd :: rest → s.busy = false → decode cw opd = .command i →
    step s = exec i { s with inputs := rest, cw := cw, opd := opd, rspValid := false, busy := true,
                             phase := .exec }) ∧
  (∀ (s : State) (cw opd : Word32) (rest : List Input),
    s.inputs = .presentStepwise cw opd :: rest → s.busy = false →
    step s = .next { s with inputs := rest, cw := cw, opd := opd, rspValid := false, busy := true,
                            phase := .exec, progress := some [] }) ∧
  (∀ (s : State) (cw opd : Word32) (rest : List Input),
    s.inputs = .present cw opd :: rest ∨ s.inputs = .presentStepwise cw opd :: rest → s.busy = true →
    step s = .next { s with inputs := rest })

/-- 30_encoding.md R83: an illegal pair completes with status 6 and result 0, without a transport call and without
any other effect than its acceptance. That one step both accepts and completes the command, two steps by 00_scope.md
R14, is the model's choice (log entry 4); CommandEndsInOneOfThreeWays says that the presentation taken step by step
ends in the same state. -/
def Obligations.IllegalCommandHasNoOtherEffect : Prop :=
  ∀ (s : State) (cw opd : Word32) (rest : List Input) (why : Illegal),
    s.inputs = .present cw opd :: rest → s.busy = false → decode cw opd = .illegal why →
    step s = .next { s with inputs := rest, cw := cw, opd := opd, rspStatus := 6, rspResult := 0,
                            rspValid := true, phase := .idle, busy := false }

/-! ### Encoding -/

/-- 30_encoding.md R85 to R88: a pair is illegal exactly in the listed cases. -/
def Obligations.IllegalExactlyInTheListedCases : Prop :=
  ∀ cw opd : Word32, (∃ why, decode cw opd = .illegal why) ↔
    10 ≤ (cw.extractLsb' 0 4).toNat ∨
    cw.extractLsb' 14 18 ≠ 0 ∨
    ((cw.extractLsb' 0 4).toNat ∉ [3, 4] ∧ cw.extractLsb' 8 6 ≠ 0) ∨
    ((cw.extractLsb' 0 4).toNat ∈ [0, 1, 2, 6] ∧ 8 ≤ (cw.extractLsb' 4 4).toNat) ∨
    ((cw.extractLsb' 0 4).toNat ∈ [5, 8] ∧ 7 ≤ (cw.extractLsb' 4 4).toNat) ∨
    ((cw.extractLsb' 0 4).toNat = 9 ∧ 2 ≤ (cw.extractLsb' 4 4).toNat) ∨
    ((cw.extractLsb' 0 4).toNat ∈ [3, 4, 7] ∧ cw.extractLsb' 4 4 ≠ 0) ∨
    ((cw.extractLsb' 0 4).toNat ∈ [6, 7, 8] ∧ opd ≠ 0) ∨
    ((cw.extractLsb' 0 4).toNat ∈ [1, 3] ∧ opd.extractLsb' 16 16 ≠ 0)

/-- Decoding the encoding of a well-formed command gives it back (30_encoding.md R89, R94). -/
def Obligations.DecodeOfEncodeIsIdentity : Prop :=
  ∀ i : Instr, i.wellFormed = true → decode (encode i).1 (encode i).2 = .command i

/-- Every legal pair decodes to a well-formed command whose encoding is that pair, so that a legal command has
exactly one encoding (30_encoding.md R83, R94). -/
def Obligations.LegalPairIsItsCommandsEncoding : Prop :=
  ∀ (cw opd : Word32) (i : Instr), decode cw opd = .command i →
    i.wellFormed = true ∧ encode i = (cw, opd)

/-- Words written out in the spec, or computed by its formula, decode to the commands they stand for (30_encoding.md
R94, R95, R85, R91, R92; 10_state.md R30; the examples of 40_register_codec.md, 41_lux_engine.md and
42_threshold_mapper.md): one word of each command, all eight field ids in every command that names a field, all
seven register addresses, both thresholds, and all four gain codes. -/
def Obligations.DecoderReadsWordsOfTheSpec : Prop :=
  (decode 0x00000010 0x00000019 = .command (.encodeField .it 25) ∧
  decode 0x00000001 0x00001800 = .command (.decodeField .gain 0x1800) ∧
  decode 0x00000012 0x0000FFFF = .command (.applyField .it 0xFFFF 0) ∧
  decode 0x00000E03 0x00000064 = .command (.rawToLux .g1_8 3 100) ∧
  decode 0x00003204 0x0001D4C0 = .command (.luxToRaw .g1_8 12 120000) ∧
  decode 0x00000045 0x00000000 = .command (.setField .sd 0) ∧
  decode 0x00000076 0x00000000 = .command (.getField .intStatus) ∧
  decode 0x00000007 0x00000000 = .command .readLux ∧
  decode 0x00000058 0x00000000 = .command (.readRaw .whiteData) ∧
  decode 0x00000019 0xFFFFFFFF = .command (.setThresh .low 0xFFFFFFFF) ∧
  decode 0x00000075 0x00000000 = .illegal .select) ∧
  ([0x00000000, 0x00000010, 0x00000020, 0x00000030, 0x00000040, 0x00000050, 0x00000060, 0x00000070].map
      (fun w => decode w 9) =
    [Field.gain, .it, .pers, .intEn, .sd, .psmEn, .psmMode, .intStatus].map
      fun f => .command (.encodeField f 9)) ∧
  ([0x00000001, 0x00000011, 0x00000021, 0x00000031, 0x00000041, 0x00000051, 0x00000061, 0x00000071].map
      (fun w => decode w 0xE00B) =
    [Field.gain, .it, .pers, .intEn, .sd, .psmEn, .psmMode, .intStatus].map
      fun f => .command (.decodeField f 0xE00B)) ∧
  ([0x00000002, 0x00000012, 0x00000022, 0x00000032, 0x00000042, 0x00000052, 0x00000062, 0x00000072].map
      (fun w => decode w 0x0003A5A5) =
    [Field.gain, .it, .pers, .intEn, .sd, .psmEn, .psmMode, .intStatus].map
      fun f => .command (.applyField f 0xA5A5 3)) ∧
  ([0x00000005, 0x00000015, 0x00000025, 0x00000035, 0x00000045, 0x00000055, 0x00000065].map
      (fun w => decode w 1) =
    [Field.gain, .it, .pers, .intEn, .sd, .psmEn, .psmMode].map fun f => .command (.setField f 1)) ∧
  ([0x00000006, 0x00000016, 0x00000026, 0x00000036, 0x00000046, 0x00000056, 0x00000066, 0x00000076].map
      (fun w => decode w 0) =
    [Field.gain, .it, .pers, .intEn, .sd, .psmEn, .psmMode, .intStatus].map
      fun f => .command (.getField f)) ∧
  ([0x00000008, 0x00000018, 0x00000028, 0x00000038, 0x00000048, 0x00000058, 0x00000068].map
      (fun w => decode w 0) =
    [RegAddr.setting, .highThresh, .lowThresh, .powerSave, .ambientData, .whiteData, .intStatus].map
      fun r => .command (.readRaw r)) ∧
  ([RegAddr.setting, .highThresh, .lowThresh, .powerSave, .ambientData, .whiteData, .intStatus].map regByte =
    [0x00, 0x01, 0x02, 0x03, 0x04, 0x05, 0x06]) ∧
  ([0x00000009, 0x00000019].map (fun w => decode w 500) =
    [Threshold.high, .low].map fun sel => .command (.setThresh sel 500)) ∧
  ([0x00000003, 0x00000103, 0x00000203, 0x00000303].map (fun w => decode w 7) =
    [Gain.g1, .g2, .g1_8, .g1_4].map fun g => .command (.rawToLux g 0 7)) ∧
  ([0x00003004, 0x00003104, 0x00003204, 0x00003304].map (fun w => decode w 7) =
    [Gain.g1, .g2, .g1_8, .g1_4].map fun g => .command (.luxToRaw g 12 7))

/-! ### Completion -/

/-- 60_exceptions.md R200, R202, R203: what `finish` sets, what taking an error sets, and the seven codes. -/
def Obligations.CompletionSetsTheResponse : Prop :=
  (∀ (r : Word32) (s : State), finish r s =
    { s with rspStatus := 0, rspResult := r, rspValid := true, phase := .idle, busy := false }) ∧
  (∀ (st : Status) (s : State), raise st s =
    { s with rspStatus := st.code, rspResult := 0, rspValid := true, phase := .idle, busy := false }) ∧
  Status.ok.code = 0 ∧ Status.invalidSetting.code = 1 ∧ Status.unknownFieldValue.code = 2 ∧
  Status.unsupportedConfiguration.code = 3 ∧ Status.outOfRange.code = 4 ∧ Status.busError.code = 5 ∧
  Status.illegalCommand.code = 6

/-! ### The field tables -/

/-- 10_state.md R46: register address, shift, width mask, positioned mask and writability of each field. -/
def Obligations.FieldDescriptorTableIsStated : Prop :=
  [Field.gain, .it, .pers, .intEn, .sd, .psmEn, .psmMode, .intStatus].map
      (fun f => (regByte (fieldReg f), fieldShift f, fieldWidth f, fieldMask f, placedMask f, f.writable)) =
    [(0x00, 11, 2, 0x3, 0x1800, true), (0x00, 6, 4, 0xF, 0x03C0, true),
     (0x00, 4, 2, 0x3, 0x0030, true), (0x00, 1, 1, 0x1, 0x0002, true),
     (0x00, 0, 1, 0x1, 0x0001, true), (0x03, 0, 1, 0x1, 0x0001, true),
     (0x03, 1, 2, 0x3, 0x0006, true), (0x06, 14, 2, 0x3, 0xC000, false)]

/-- 10_state.md R47: the masks of two fields of one register share no bit. -/
def Obligations.FieldsOfOneRegisterNeverOverlap : Prop :=
  ∀ f g : Field, f ≠ g → fieldReg f = fieldReg g → placedMask f &&& placedMask g = 0

/-- 40_register_codec.md R111: the domain and the values of `ENC[f]` for each field. -/
def Obligations.EncodeTableIsStated : Prop :=
  ∀ (x : Word32) (c : Reg16),
    (enc .gain x = some c ↔
      (x = 8 ∧ c = 0) ∨ (x = 16 ∧ c = 1) ∨ (x = 1 ∧ c = 2) ∨ (x = 2 ∧ c = 3)) ∧
    (enc .it x = some c ↔
      (x = 100 ∧ c = 0) ∨ (x = 200 ∧ c = 1) ∨ (x = 400 ∧ c = 2) ∨ (x = 800 ∧ c = 3) ∨
      (x = 50 ∧ c = 8) ∨ (x = 25 ∧ c = 12)) ∧
    (enc .pers x = some c ↔
      (x = 1 ∧ c = 0) ∨ (x = 2 ∧ c = 1) ∨ (x = 4 ∧ c = 2) ∨ (x = 8 ∧ c = 3)) ∧
    (enc .intEn x = some c ↔ (x = 0 ∧ c = 0) ∨ (x = 1 ∧ c = 1)) ∧
    (enc .sd x = some c ↔ (x = 0 ∧ c = 0) ∨ (x = 1 ∧ c = 1)) ∧
    (enc .psmEn x = some c ↔ (x = 0 ∧ c = 0) ∨ (x = 1 ∧ c = 1)) ∧
    (enc .psmMode x = some c ↔
      (x = 1 ∧ c = 0) ∨ (x = 2 ∧ c = 1) ∨ (x = 3 ∧ c = 2) ∨ (x = 4 ∧ c = 3)) ∧
    (enc .intStatus x = some c ↔ (x = 0 ∧ c = 0) ∨ (x = 1 ∧ c = 1) ∨ (x = 2 ∧ c = 2))

/-- 40_register_codec.md R112: `DEC[f]` is the inverse of `ENC[f]`, and the reserved codes of each field are
exactly those listed. -/
def Obligations.DecodeTableInvertsEncodeTable : Prop :=
  (∀ (f : Field) (x : Word32) (c : Reg16), dec f c = some x ↔ enc f x = some c) ∧
  (∀ (f : Field) (c : Reg16), c ≤ fieldMask f →
    (dec f c = none ↔
      (f = .it ∧ c.toNat ∈ [4, 5, 6, 7, 9, 10, 11, 13, 14, 15]) ∨ (f = .intStatus ∧ c = 3)))

/-- 40_register_codec.md R120: `put` changes the bits of its field only, holds the code, and leaves every other
field of the register. -/
def Obligations.PutChangesOnlyItsField : Prop :=
  ∀ (f : Field) (v b : Reg16), b ≤ fieldMask f →
    put f v b &&& ~~~placedMask f = v &&& ~~~placedMask f ∧
    fieldOf f (put f v b) = b ∧
    ∀ g : Field, g ≠ f → fieldReg g = fieldReg f → fieldOf g (put f v b) = fieldOf g v

/-! ### The pure codec commands -/

/-- 40_register_codec.md R113: ENCODE completes with the code of a documented value, which fits its field, and
with InvalidSetting for every other value; nothing else changes. -/
def Obligations.EncodeCommandResult : Prop :=
  ∀ (f : Field) (x : Word32) (s : State),
    (∀ c, enc f x = some c →
      c ≤ fieldMask f ∧
      exec (.encodeField f x) s =
        .next { s with rspStatus := 0, rspResult := c.zeroExtend 32, rspValid := true, phase := .idle,
                       busy := false }) ∧
    (enc f x = none →
      exec (.encodeField f x) s =
        .next { s with rspStatus := 1, rspResult := 0, rspValid := true, phase := .idle, busy := false })

/-- 40_register_codec.md R114: DECODE completes with the logical value of the field's code, and with
UnknownFieldValue for a reserved code; nothing else changes. -/
def Obligations.DecodeCommandResult : Prop :=
  ∀ (f : Field) (v : Reg16) (s : State),
    (∀ x, dec f ((v >>> fieldShift f) &&& fieldMask f) = some x →
      exec (.decodeField f v) s =
        .next { s with rspStatus := 0, rspResult := x, rspValid := true, phase := .idle, busy := false }) ∧
    (dec f ((v >>> fieldShift f) &&& fieldMask f) = none →
      exec (.decodeField f v) s =
        .next { s with rspStatus := 2, rspResult := 0, rspValid := true, phase := .idle, busy := false })

/-- 40_register_codec.md R115: APPLY completes with the register value in which the code is put, for every code
that fits the field, reserved or not, and with InvalidSetting for a wider one; nothing else changes. -/
def Obligations.ApplyCommandResult : Prop :=
  ∀ (f : Field) (v b : Reg16) (s : State),
    (b ≤ fieldMask f →
      exec (.applyField f v b) s =
        .next { s with rspStatus := 0
                       rspResult := ((v &&& ~~~placedMask f) ||| (b <<< fieldShift f)).zeroExtend 32
                       rspValid := true, phase := .idle, busy := false }) ∧
    (fieldMask f < b →
      exec (.applyField f v b) s =
        .next { s with rspStatus := 1, rspResult := 0, rspValid := true, phase := .idle, busy := false })

/-- 40_register_codec.md R119: the tables are inverse to each other, and ENCODE, APPLY and DECODE in turn, each
on the result before it, complete with OK and give the documented value back. -/
def Obligations.CodecRoundTrip : Prop :=
  (∀ (f : Field) (x : Word32) (c : Reg16), enc f x = some c → dec f c = some x) ∧
  (∀ (f : Field) (c : Reg16) (x : Word32), dec f c = some x → enc f x = some c) ∧
  (∀ (f : Field) (x : Word32) (v : Reg16) (s : State), enc f x ≠ none →
    ∃ s₁ s₂ s₃,
      exec (.encodeField f x) s = .next s₁ ∧ s₁.rspStatus = 0 ∧
      exec (.applyField f v (s₁.rspResult.extractLsb' 0 16)) s₁ = .next s₂ ∧ s₂.rspStatus = 0 ∧
      exec (.decodeField f (s₂.rspResult.extractLsb' 0 16)) s₂ = .next s₃ ∧ s₃.rspStatus = 0 ∧
      s₃.rspResult = x)

/-! ### The codec commands that use the transport -/

/-- 40_register_codec.md R116: SET_FIELD of a documented value whose two calls answer `Ok` reads the register,
writes the value with the code put in, and completes with the value written, except for the power-on write. That
every other register of the device is as before the read and the write is the model's choice (log entry 3;
20_memory.md R65 leaves side effects of a read open), also after the write of SD = 1 (log entry 9). The power-on
write is in PowerOnWriteSettlesThenCompletes. -/
def Obligations.SetFieldCompletes : Prop :=
  ∀ (f : Field) (x : Word32) (c v : Reg16) (s : State) (a₁ a₂ : Answer) (rest : List Answer),
    f.writable = true → enc f x = some c → ¬(f = .sd ∧ c = 0) → s.answers = a₁ :: a₂ :: rest →
    bringsValue s.device (fieldReg f) a₁ v → acceptsWrite a₂ →
    exec (.setField f x) s =
      .next { completedAfter s
                [.read (devAddrBits hardware.devAddr) (regByte (fieldReg f)) (some v),
                 .write (devAddrBits hardware.devAddr) (regByte (fieldReg f)) (put f v c) true]
                0 ((put f v c).zeroExtend 32) with
              device := deviceWrite s.device (fieldReg f) (put f v c) }

/-- 70_reset_and_hazards.md R240, R241: the power-on write enters the settle wait, whatever `SD` was; the block's
next own step is the wait, which records the settle event and keeps BUSY and PHASE, and the one after it completes
the command with the value written. That entering the wait, waiting and completing are three steps is the model's
choice (log entry 5). That RSP_STATUS and RSP_RESULT keep their values until the completion is the model's too (log
entry 12): a reader may not rely on them while BUSY = 1. That the device is the earlier one with that one write
applied, the read having changed nothing, is the model's choice (log entry 3; 20_memory.md R65). The last clause
speaks of a block with no input listed. -/
def Obligations.PowerOnWriteSettlesThenCompletes : Prop :=
  ∀ (v : Reg16) (s : State) (a₁ a₂ : Answer) (rest : List Answer),
    s.answers = a₁ :: a₂ :: rest → bringsValue s.device .setting a₁ v → acceptsWrite a₂ →
    ∃ t, exec (.setField .sd 0) s = .next t ∧
      t.phase = .settle ∧ t.busy = true ∧ t.rspValid = s.rspValid ∧ t.rspStatus = s.rspStatus ∧
      t.rspResult = s.rspResult ∧ t.cw = s.cw ∧ t.opd = s.opd ∧ t.inflight = s.inflight ∧
      t.progress = s.progress ∧
      t.device = deviceWrite s.device .setting (put .sd v 0) ∧
      t.history = s.history ++
        [.read (devAddrBits hardware.devAddr) 0x00 (some v),
         .write (devAddrBits hardware.devAddr) 0x00 (put .sd v 0) true] ∧
      t.answers = rest ∧ t.callIndex = s.callIndex + 2 ∧ t.inputs = s.inputs ∧
      t.powerCycles = s.powerCycles ∧
      (s.inputs = [] → ∃ u,
        step t = .next u ∧ u = { t with history := t.history ++ [.settle], settleDone := true } ∧
        step u = .next { u with rspStatus := 0, rspResult := (put .sd v 0).zeroExtend 32, rspValid := true
                                phase := .idle, busy := false })

/-- 40_register_codec.md R116: an undocumented value is rejected before any transport call, and SET_FIELD of
the read-only field, which no encoding gives, is an IllegalCommand without a call (log entry 15). -/
def Obligations.SetFieldRejectsBeforeAnyCall : Prop :=
  (∀ (f : Field) (x : Word32) (s : State), f.writable = true → enc f x = none →
    exec (.setField f x) s = .next (completedAfter s [] 1 0)) ∧
  (∀ (x : Word32) (s : State), exec (.setField .intStatus x) s = .next (completedAfter s [] 6 0))

/-- 40_register_codec.md R116, 20_memory.md R67: a failed read ends SET_FIELD with BusError and no write, a failed
write with BusError and the device as it was. The device's registers are as before by R121; that the read before has
no side effect either, which 60_exceptions.md R205 leaves open, is the model's choice (log entry 3). -/
def Obligations.SetFieldBusErrorLeavesDevice : Prop :=
  ∀ (f : Field) (x : Word32) (c : Reg16) (s : State), f.writable = true → enc f x = some c →
    (∀ rest, s.answers = .err :: rest →
      exec (.setField f x) s =
        .next (completedAfter s [.read (devAddrBits hardware.devAddr) (regByte (fieldReg f)) none] 5 0)) ∧
    (∀ a₁ v rest, s.answers = a₁ :: .err :: rest → bringsValue s.device (fieldReg f) a₁ v →
      exec (.setField f x) s =
        .next (completedAfter s
          [.read (devAddrBits hardware.devAddr) (regByte (fieldReg f)) (some v),
           .write (devAddrBits hardware.devAddr) (regByte (fieldReg f)) (put f v c) false] 5 0))

/-- 40_register_codec.md R117: GET_FIELD makes one read and completes with the field's logical value, with
UnknownFieldValue for a reserved code, with BusError for a failed read. That the device's registers are
unchanged, also by a read of INT_STATUS, is the model's choice (log entry 3): R117 and 20_memory.md R65 leave side
effects of a read open. -/
def Obligations.GetFieldResult : Prop :=
  ∀ (f : Field) (s : State) (a : Answer) (rest : List Answer), s.answers = a :: rest →
    (∀ v x, bringsValue s.device (fieldReg f) a v → dec f (fieldOf f v) = some x →
      exec (.getField f) s =
        .next (completedAfter s
          [.read (devAddrBits hardware.devAddr) (regByte (fieldReg f)) (some v)] 0 x)) ∧
    (∀ v, bringsValue s.device (fieldReg f) a v → dec f (fieldOf f v) = none →
      exec (.getField f) s =
        .next (completedAfter s
          [.read (devAddrBits hardware.devAddr) (regByte (fieldReg f)) (some v)] 2 0)) ∧
    (a = .err →
      exec (.getField f) s =
        .next (completedAfter s
          [.read (devAddrBits hardware.devAddr) (regByte (fieldReg f)) none] 5 0))

/-- 40_register_codec.md R118: READ_RAW makes one read and completes with the register's 16 bits, or with
BusError. That the device's registers are unchanged, also by a read of AMBIENT_DATA, WHITE_DATA or INT_STATUS, is the
model's choice (log entry 3): 20_memory.md R65 leaves side effects of a read open. -/
def Obligations.ReadRawResult : Prop :=
  ∀ (r : RegAddr) (s : State) (a : Answer) (rest : List Answer), s.answers = a :: rest →
    (∀ v, bringsValue s.device r a v →
      exec (.readRaw r) s =
        .next (completedAfter s [.read (devAddrBits hardware.devAddr) (regByte r) (some v)] 0
          (v.zeroExtend 32))) ∧
    (a = .err →
      exec (.readRaw r) s =
        .next (completedAfter s [.read (devAddrBits hardware.devAddr) (regByte r) none] 5 0))

/-! ### The lux engine -/

/-- 41_lux_engine.md R141, with the gain codes of 10_state.md R32: every entry is `36 * 2^(gs + ts)`, by gain and
by raw gain code, the two anchors are the document's, and the gain of each code is the stated one. -/
def Obligations.ResolutionTableIsStated : Prop :=
  (∀ g t, resolution g t =
    36 * 2 ^ ((match g with | .g2 => 0 | .g1 => 1 | .g1_4 => 3 | .g1_8 => 4) +
      (match t with | .it800 => 0 | .it400 => 1 | .it200 => 2 | .it100 => 3 | .it50 => 4 | .it25 => 5))) ∧
  resolution .g1_8 .it800 = 576 ∧ resolution .g2 .it25 = 1152 ∧
  (∀ (gc : BitVec 2) (tc : BitVec 4) (gs ts : Nat),
    (gc, gs) ∈ [((1 : BitVec 2), 0), (0, 1), (3, 3), (2, 4)] →
    (tc, ts) ∈ [((3 : BitVec 4), 0), (2, 1), (1, 2), (0, 3), (8, 4), (12, 5)] →
    ∃ it, intTimeOf tc = some it ∧ resolution (Gain.ofCode gc) it = 36 * 2 ^ (gs + ts)) ∧
  ([0, 1, 2, 3].map Gain.ofCode = [Gain.g1, .g2, .g1_8, .g1_4]) ∧
  ([Gain.g1, .g2, .g1_8, .g1_4].map Gain.code = [0, 1, 2, 3])

/-- 41_lux_engine.md R140, R142, R143, R144, with the codes of 10_state.md R32 and R33: the lux of a count under a
raw pair of codes, written out. -/
def Obligations.LuxFunctionIsStated : Prop :=
  ∀ (raw : Reg16) (gc : BitVec 2) (t : BitVec 4),
    (t.toNat ∉ [0, 1, 2, 3, 8, 12] → luxOf hardware raw (Gain.ofCode gc) t = .error .unsupportedConfiguration) ∧
    (∀ g it, (gc.toNat, g) ∈ [(0, Gain.g1), (1, .g2), (2, .g1_8), (3, .g1_4)] →
      (t.toNat, it) ∈ [(0, IntTime.it100), (1, .it200), (2, .it400), (3, .it800), (8, .it50), (12, .it25)] →
      luxOf hardware raw (Gain.ofCode gc) t = .ok
        (let l := raw.toNat * resolution g it / 10000
         if l > 1000 then
           ((60135 * (l : Int) ^ 4 - 939240000 * (l : Int) ^ 3 + 8148800000000 * (l : Int) ^ 2 +
             100230000000000000 * (l : Int)) / 100000000000000000).toNat
         else l))

/-- 41_lux_engine.md R145: RAW2LUX completes with the lux under a valid pair, and with UnsupportedConfiguration
for a reserved integration-time code; nothing else changes. -/
def Obligations.RawToLuxResult : Prop :=
  ∀ (g : Gain) (t : BitVec 4) (raw : Reg16) (s : State),
    (∀ lux, luxOf hardware raw g t = .ok lux →
      lux ≤ 112784830 ∧
      exec (.rawToLux g t raw) s =
        .next { s with rspStatus := 0, rspResult := BitVec.ofNat 32 lux, rspValid := true, phase := .idle,
                       busy := false }) ∧
    (t.toNat ∉ [0, 1, 2, 3, 8, 12] →
      exec (.rawToLux g t raw) s =
        .next { s with rspStatus := 3, rspResult := 0, rspValid := true, phase := .idle, busy := false })

/-- 41_lux_engine.md R146: READ_LUX reads SETTING, then AMBIENT_DATA, and completes with the lux of the count
under the pair just read; `SD` is not checked. That the device's registers are unchanged, also by the read of
AMBIENT_DATA, is the model's choice (log entry 3): 20_memory.md R65 leaves side effects of a read open. -/
def Obligations.ReadLuxCompletes : Prop :=
  ∀ (s : State) (a₁ a₂ : Answer) (rest : List Answer) (v raw : Reg16) (lux : Nat),
    s.answers = a₁ :: a₂ :: rest → bringsValue s.device .setting a₁ v →
    bringsValue s.device .ambientData a₂ raw →
    luxOf hardware raw (Gain.ofCode (v.extractLsb' 11 2)) (v.extractLsb' 6 4) = .ok lux →
    exec .readLux s =
      .next (completedAfter s
        [.read (devAddrBits hardware.devAddr) 0x00 (some v),
         .read (devAddrBits hardware.devAddr) 0x04 (some raw)] 0 (BitVec.ofNat 32 lux))

/-- 41_lux_engine.md R146: under a reserved integration-time code READ_LUX completes with
UnsupportedConfiguration and AMBIENT_DATA is not read; a failed read of either register is a BusError. That the
device's registers are unchanged by the reads is the model's choice (log entry 3; 20_memory.md R65). -/
def Obligations.ReadLuxErrors : Prop :=
  ∀ s : State,
    (∀ a₁ v rest, s.answers = a₁ :: rest → bringsValue s.device .setting a₁ v →
      (v.extractLsb' 6 4).toNat ∉ [0, 1, 2, 3, 8, 12] →
      exec .readLux s =
        .next (completedAfter s [.read (devAddrBits hardware.devAddr) 0x00 (some v)] 3 0)) ∧
    (∀ rest, s.answers = .err :: rest →
      exec .readLux s = .next (completedAfter s [.read (devAddrBits hardware.devAddr) 0x00 none] 5 0)) ∧
    (∀ a₁ v rest, s.answers = a₁ :: .err :: rest → bringsValue s.device .setting a₁ v →
      (v.extractLsb' 6 4).toNat ∈ [0, 1, 2, 3, 8, 12] →
      exec .readLux s =
        .next (completedAfter s
          [.read (devAddrBits hardware.devAddr) 0x00 (some v),
           .read (devAddrBits hardware.devAddr) 0x04 none] 5 0))

/-- 41_lux_engine.md R147: the ranges of the uncompensated and of the final lux, and where the maximum is. -/
def Obligations.LuxStaysInRange : Prop :=
  (∀ (raw : Reg16) (g : Gain) (t : IntTime),
    linearLux hardware raw g t ≤ 120794 ∧ luxValue hardware raw g t ≤ 112784830) ∧
  linearLux hardware 0xFFFF .g1_8 .it25 = 120794 ∧ luxValue hardware 0xFFFF .g1_8 .it25 = 112784830 ∧
  comp 120794 = 112784830 ∧ 112784830 < 2 ^ 27 ∧
  (∀ l : Nat, l ≤ 120794 → 0 ≤ compNumerator l ∧ compNumerator l < 2 ^ 84)

/-- 41_lux_engine.md R148: the lux is non-decreasing in the raw count, as is the uncompensated lux, and `comp` is
strictly increasing from 1001 on, where it starts at 1076. -/
def Obligations.LuxIsMonotone : Prop :=
  (∀ (raw raw' : Reg16) (g : Gain) (t : IntTime), raw ≤ raw' →
    luxValue hardware raw g t ≤ luxValue hardware raw' g t ∧
    linearLux hardware raw g t ≤ linearLux hardware raw' g t) ∧
  (∀ l l' : Nat, 1001 ≤ l → l < l' → comp l < comp l') ∧ comp 1001 = 1076

/-- 41_lux_engine.md R149: the knee, and the values that are never results. -/
def Obligations.KneeLeavesGap : Prop :=
  (∀ (raw : Reg16) (g : Gain) (t : IntTime), linearLux hardware raw g t = 1000 →
    luxValue hardware raw g t = 1000) ∧
  (∀ (raw : Reg16) (g : Gain) (t : IntTime), linearLux hardware raw g t = 1001 →
    luxValue hardware raw g t = 1076) ∧
  (∀ (raw : Reg16) (g : Gain) (t : IntTime),
    ¬(1001 ≤ luxValue hardware raw g t ∧ luxValue hardware raw g t ≤ 1075)) ∧
  comp 1000 = 1074

/-- 41_lux_engine.md R150: a count of 0 is 0 lux under every valid pair, and RAW2LUX says so. -/
def Obligations.ZeroCountIsZeroLux : Prop :=
  (∀ (g : Gain) (t : IntTime), luxValue hardware 0 g t = 0) ∧
  ∀ (g : Gain) (t : BitVec 4) (s : State), t.toNat ∈ [0, 1, 2, 3, 8, 12] →
    ∃ u, exec (.rawToLux g t 0) s = .next u ∧ u.rspStatus = 0 ∧ u.rspResult = 0

/-! ### The threshold mapper -/

/-- 42_threshold_mapper.md R170, R171, R173: the count of a threshold lux, written out, with this hardware's
REJECT. -/
def Obligations.ThresholdFunctionIsStated : Prop :=
  ∀ (lux : Int) (g : Gain) (t : BitVec 4),
    (lux < 0 ∨ 120000 < lux → rawOf hardware lux g t = .error .outOfRange) ∧
    (0 ≤ lux → lux ≤ 120000 → t.toNat ∉ [0, 1, 2, 3, 8, 12] →
      rawOf hardware lux g t = .error .unsupportedConfiguration) ∧
    (∀ it, 0 ≤ lux → lux ≤ 120000 → intTimeOf t = some it →
      (0xFFFF < lux * 10000 / (resolution g it : Int) → rawOf hardware lux g t = .error .outOfRange) ∧
      (lux * 10000 / (resolution g it : Int) ≤ 0xFFFF →
        ∃ q, rawOf hardware lux g t = .ok q ∧ (q.toNat : Int) = lux * 10000 / (resolution g it : Int)))

/-- 42_threshold_mapper.md R172: a count above 16 bits is OutOfRange under REJECT and 0xFFFF under SATURATE,
whatever the other parameters; this hardware rejects; and for each resolution the largest in-range lux that does
not overflow. -/
def Obligations.OverflowFollowsTheParameter : Prop :=
  (∀ (p : Params) (lux : Int) (g : Gain) (t : BitVec 4) (it : IntTime), intTimeOf t = some it →
    0 ≤ lux → lux ≤ p.threshMaxLux → 0xFFFF < lux.toNat * 10000 / p.resTable g it →
    (p.threshOverflow = .reject → rawOf p lux g t = .error .outOfRange) ∧
    (p.threshOverflow = .saturate → rawOf p lux g t = .ok 0xFFFF)) ∧
  hardware.threshOverflow = .reject ∧
  (∀ r m : Nat, (r, m) ∈ [(36, 235), (72, 471), (144, 943), (288, 1887), (576, 3774), (1152, 7549),
      (2304, 15099), (4608, 30198), (9216, 60397), (18432, 120000)] →
    ∀ (g : Gain) (t : IntTime), resolution g t = r →
      ∀ lux : Int, 0 ≤ lux → lux ≤ 120000 → (rawCount hardware lux g t ≤ 0xFFFF ↔ lux ≤ m))

/-- 42_threshold_mapper.md R173: LUX2RAW completes with the count, or with the error of the mapping; nothing
else changes. -/
def Obligations.LuxToRawResult : Prop :=
  ∀ (g : Gain) (t : BitVec 4) (lux : Word32) (s : State),
    (∀ q, rawOf hardware lux.toInt g t = .ok q →
      exec (.luxToRaw g t lux) s =
        .next { s with rspStatus := 0, rspResult := q.zeroExtend 32, rspValid := true, phase := .idle,
                       busy := false }) ∧
    (rawOf hardware lux.toInt g t = .error .outOfRange →
      exec (.luxToRaw g t lux) s =
        .next { s with rspStatus := 4, rspResult := 0, rspValid := true, phase := .idle, busy := false }) ∧
    (rawOf hardware lux.toInt g t = .error .unsupportedConfiguration →
      exec (.luxToRaw g t lux) s =
        .next { s with rspStatus := 3, rspResult := 0, rspValid := true, phase := .idle, busy := false })

/-- 42_threshold_mapper.md R170: outside [0, 120000] both threshold commands complete with OutOfRange before
anything else: no transport call, no write, whatever the pair. -/
def Obligations.OutOfRangeLuxMakesNoCall : Prop :=
  ∀ (lux : Word32) (s : State), lux.toInt < 0 ∨ 120000 < lux.toInt →
    (∀ (g : Gain) (t : BitVec 4), exec (.luxToRaw g t lux) s = .next (completedAfter s [] 4 0)) ∧
    (∀ sel : Threshold, exec (.setThresh sel lux) s = .next (completedAfter s [] 4 0))

/-- 42_threshold_mapper.md R174: SET_THRESH of an in-range lux whose count fits under the pair just read writes that
count to the selected threshold register and completes with it; nothing else changes. That every other register of
the device is as before, the read of SETTING having changed nothing, is the model's choice (log entry 3;
20_memory.md R65 leaves side effects of a read open). -/
def Obligations.SetThreshCompletes : Prop :=
  ∀ (sel : Threshold) (lux : Word32) (s : State) (a₁ a₂ : Answer) (rest : List Answer) (v q : Reg16),
    0 ≤ lux.toInt → lux.toInt ≤ 120000 → s.answers = a₁ :: a₂ :: rest →
    bringsValue s.device .setting a₁ v → acceptsWrite a₂ →
    rawOf hardware lux.toInt (Gain.ofCode (v.extractLsb' 11 2)) (v.extractLsb' 6 4) = .ok q →
    exec (.setThresh sel lux) s =
      .next { completedAfter s
                [.read (devAddrBits hardware.devAddr) 0x00 (some v),
                 .write (devAddrBits hardware.devAddr) (match sel with | .high => 0x01 | .low => 0x02) q
                   true] 0 (q.zeroExtend 32) with
              device :=
                match sel with
                | .high => { s.device with highThresh := q }
                | .low => { s.device with lowThresh := q } }

/-- 42_threshold_mapper.md R174: SET_THRESH fails after the read with UnsupportedConfiguration or OutOfRange and no
write, and with BusError when either call fails; the device is unchanged. That no register of the device at all is
changed is the model's choice (log entry 3): by 60_exceptions.md R205 the reads before the error may have had side
effects on the device. -/
def Obligations.SetThreshErrors : Prop :=
  ∀ (sel : Threshold) (lux : Word32) (s : State), 0 ≤ lux.toInt → lux.toInt ≤ 120000 →
    (∀ rest, s.answers = .err :: rest →
      exec (.setThresh sel lux) s =
        .next (completedAfter s [.read (devAddrBits hardware.devAddr) 0x00 none] 5 0)) ∧
    (∀ a₁ v rest, s.answers = a₁ :: rest → bringsValue s.device .setting a₁ v →
      (rawOf hardware lux.toInt (Gain.ofCode (v.extractLsb' 11 2)) (v.extractLsb' 6 4) =
          .error .unsupportedConfiguration →
        exec (.setThresh sel lux) s =
          .next (completedAfter s [.read (devAddrBits hardware.devAddr) 0x00 (some v)] 3 0)) ∧
      (rawOf hardware lux.toInt (Gain.ofCode (v.extractLsb' 11 2)) (v.extractLsb' 6 4) =
          .error .outOfRange →
        exec (.setThresh sel lux) s =
          .next (completedAfter s [.read (devAddrBits hardware.devAddr) 0x00 (some v)] 4 0))) ∧
    (∀ a₁ v q rest, s.answers = a₁ :: .err :: rest → bringsValue s.device .setting a₁ v →
      rawOf hardware lux.toInt (Gain.ofCode (v.extractLsb' 11 2)) (v.extractLsb' 6 4) = .ok q →
      exec (.setThresh sel lux) s =
        .next (completedAfter s
          [.read (devAddrBits hardware.devAddr) 0x00 (some v),
           .write (devAddrBits hardware.devAddr) (match sel with | .high => 0x01 | .low => 0x02) q false]
          5 0))

/-- 42_threshold_mapper.md R176: the round trip of lux to raw to lux, for every lux up to 1000 whose count does
not overflow. -/
def Obligations.ThresholdRoundTrip : Prop :=
  ∀ (lux : Int) (g : Gain) (t : BitVec 4) (it : IntTime) (q : Reg16),
    0 ≤ lux → lux ≤ 1000 → intTimeOf t = some it → rawOf hardware lux g t = .ok q →
    lux * 10000 - resolution g it < q.toNat * resolution g it ∧
    (q.toNat : Int) * resolution g it ≤ lux * 10000 ∧
    ∃ l : Nat, luxOf hardware q g t = .ok l ∧ (l : Int) ≤ lux ∧ l ≤ 1000 ∧
      (resolution g it ≤ 9216 → lux - 1 ≤ l) ∧ (resolution g it = 18432 → lux - 2 ≤ l)

/-- 42_threshold_mapper.md R175: the threshold path inverts only the linear scaling: the uncompensated lux at
the mapped count is at most 2 below the lux and never above it, at every in-range lux, and a reading there that
is compensated is larger than the lux. -/
def Obligations.ThresholdPathIsNotCompensated : Prop :=
  ∀ (lux : Int) (g : Gain) (t : BitVec 4) (it : IntTime) (q : Reg16),
    intTimeOf t = some it → rawOf hardware lux g t = .ok q →
    (linearLux hardware q g it : Int) ≤ lux ∧ lux - 2 ≤ linearLux hardware q g it ∧
    (1000 < linearLux hardware q g it → lux < luxValue hardware q g it)

/-! ### The transport -/

/-- 20_memory.md R61: the bytes of a write are address, low byte, high byte; a read combines its two bytes low
byte first; the two orders agree. The statement is of two functions beside the machine, `writeBytes` and
`readValue`: the block moves whole values, and no step uses them (log entry 18, the model's choice). -/
def Obligations.BusIsLowByteFirst : Prop :=
  (∀ (a : RegByte) (v : Reg16), writeBytes a v = [a, v.extractLsb' 0 8, v.extractLsb' 8 8]) ∧
  (∀ b₀ b₁ : Byte, (readValue b₀ b₁).toNat = b₀.toNat + 256 * b₁.toNat) ∧
  (∀ v : Reg16, readValue (v.extractLsb' 0 8) (v.extractLsb' 8 8) = v)

/-- 20_memory.md R69, R71: a command's records are a prefix of its stated calls in their order, reads before its
write, each call with `DEV_ADDR` at a stated register, and no command that lists none makes any. That an unanswered
call has no record, and that a record carries `DEV_ADDR`, is the model's choice (log entry 10). -/
def Obligations.CommandsMakeOnlyTheirStatedCalls : Prop :=
  ∀ (i : Instr) (s t : State), i.wellFormed = true → exec i s = .next t →
    ∃ ev, t.history = s.history ++ ev ∧ (∀ e ∈ ev, goodEvent e ∧ e ≠ .settle) ∧
      ev.filterMap callShape <+: callTemplate i

/-- A call for which no answer is listed gets the free answer, whatever that is, exactly as if it were listed
(20_memory.md R66): the first call of every command that makes one, and the second call of SET_FIELD, READ_LUX and
SET_THRESH. That answers come from a list, and then from the free answer, is the model's choice (log entry 1). -/
def Obligations.UnlistedAnswerIsFree : Prop :=
  (∀ s : State, s.answers = [] →
    (∀ r, exec (.readRaw r) s =
      exec (.readRaw r) { s with answers := [Config.freeAnswer s.callIndex s.history (.read r)] }) ∧
    (∀ f, exec (.getField f) s =
      exec (.getField f) { s with answers := [Config.freeAnswer s.callIndex s.history (.read (fieldReg f))] }) ∧
    (∀ f x, f.writable = true → enc f x ≠ none → exec (.setField f x) s =
      exec (.setField f x)
        { s with answers := [Config.freeAnswer s.callIndex s.history (.read (fieldReg f))] }) ∧
    (exec .readLux s =
      exec .readLux { s with answers := [Config.freeAnswer s.callIndex s.history (.read .setting)] }) ∧
    (∀ sel lux, 0 ≤ lux.toInt → lux.toInt ≤ 120000 → exec (.setThresh sel lux) s =
      exec (.setThresh sel lux)
        { s with answers := [Config.freeAnswer s.callIndex s.history (.read .setting)] })) ∧
  (∀ (s : State) (a : Answer) (v : Reg16), s.answers = [a] →
    (∀ f x c, f.writable = true → enc f x = some c → bringsValue s.device (fieldReg f) a v →
      exec (.setField f x) s =
        exec (.setField f x) { s with answers := [a, Config.freeAnswer (s.callIndex + 1)
          (s.history ++ [.read (devAddrBits hardware.devAddr) (regByte (fieldReg f)) (some v)])
          (.write (fieldReg f) (put f v c))] }) ∧
    (bringsValue s.device .setting a v → (v.extractLsb' 6 4).toNat ∈ [0, 1, 2, 3, 8, 12] →
      exec .readLux s =
        exec .readLux { s with answers := [a, Config.freeAnswer (s.callIndex + 1)
          (s.history ++ [.read (devAddrBits hardware.devAddr) 0x00 (some v)]) (.read .ambientData)] }) ∧
    (∀ sel lux q, 0 ≤ lux.toInt → lux.toInt ≤ 120000 → bringsValue s.device .setting a v →
      rawOf hardware lux.toInt (Gain.ofCode (v.extractLsb' 11 2)) (v.extractLsb' 6 4) = .ok q →
      exec (.setThresh sel lux) s =
        exec (.setThresh sel lux) { s with answers := [a, Config.freeAnswer (s.callIndex + 1)
          (s.history ++ [.read (devAddrBits hardware.devAddr) 0x00 (some v)])
          (.write (match sel with | .high => .highThresh | .low => .lowThresh) q)] }))

/-- 20_memory.md R68: a command stuck in EXEC keeps `BUSY = 1`, makes no response, and takes no further step, for
any number of steps without an input. That the device's registers are as before, also where a write is in flight, is
the model's choice: only landed writes change them (log entry 3), and the reset decides whether a write in flight has
landed (log entry 8), which 70_reset_and_hazards.md R232 leaves open. That RSP_STATUS and RSP_RESULT keep their values
while `BUSY = 1` is the model's reading (log entry 12), which a reader may not rely on; that a stuck block's own step
is a step to the same state is the model's too (log entry 6). -/
def Obligations.StuckCommandStaysStuck : Prop :=
  ∀ (i : Instr) (s t : State), exec i s = .next t → t.phase = .exec →
    t.busy = true ∧ t.inflight.isSome = true ∧ t.rspValid = s.rspValid ∧ t.rspStatus = s.rspStatus ∧
    t.rspResult = s.rspResult ∧ t.device = s.device ∧
    (t.inputs = [] → ∀ n, Host.Core.run Sys2Proof.core n t = .next t)

/-- 20_memory.md R68: a transport call that is never answered leaves the block stuck on it with no response: the
first call of each command that makes one, and the second call of SET_FIELD, READ_LUX and SET_THRESH after the first
one's record. That the unanswered call has no record is the model's choice (log entry 10), and that the response
registers are as before is its reading (log entry 12). That the device's registers are as before, also where the call
is a write, is the model's choice (log entries 3 and 8). -/
def Obligations.SilentCallSticks : Prop :=
  (∀ (s : State) (rest : List Answer), s.answers = .silent :: rest →
    (∀ r, exec (.readRaw r) s = .next (stuckAfter s [] (.read r))) ∧
    (∀ f, exec (.getField f) s = .next (stuckAfter s [] (.read (fieldReg f)))) ∧
    (∀ f x c, f.writable = true → enc f x = some c →
      exec (.setField f x) s = .next (stuckAfter s [] (.read (fieldReg f)))) ∧
    exec .readLux s = .next (stuckAfter s [] (.read .setting)) ∧
    (∀ sel lux, 0 ≤ lux.toInt → lux.toInt ≤ 120000 →
      exec (.setThresh sel lux) s = .next (stuckAfter s [] (.read .setting)))) ∧
  (∀ (s : State) (a : Answer) (v : Reg16) (rest : List Answer), s.answers = a :: .silent :: rest →
    (∀ f x c, f.writable = true → enc f x = some c → bringsValue s.device (fieldReg f) a v →
      exec (.setField f x) s =
        .next (stuckAfter s [.read (devAddrBits hardware.devAddr) (regByte (fieldReg f)) (some v)]
          (.write (fieldReg f) (put f v c)))) ∧
    (bringsValue s.device .setting a v → (v.extractLsb' 6 4).toNat ∈ [0, 1, 2, 3, 8, 12] →
      exec .readLux s =
        .next (stuckAfter s [.read (devAddrBits hardware.devAddr) 0x00 (some v)] (.read .ambientData))) ∧
    (∀ sel lux q, 0 ≤ lux.toInt → lux.toInt ≤ 120000 → bringsValue s.device .setting a v →
      rawOf hardware lux.toInt (Gain.ofCode (v.extractLsb' 11 2)) (v.extractLsb' 6 4) = .ok q →
      exec (.setThresh sel lux) s =
        .next (stuckAfter s [.read (devAddrBits hardware.devAddr) 0x00 (some v)]
          (.write (match sel with | .high => .highThresh | .low => .lowThresh) q))))

/-- 20_memory.md R67, R71: over any run without device power loss and without a reset that lands a write in flight,
the device's registers are the earlier ones with the writes answered `Ok` applied in the history's order. That
nothing else changes them is the model's choice (log entry 3). So are that a shutdown keeps them (log entry 9), that
a reset's bit decides on a write in flight (log entry 8), and that the history is kept over a block reset (log entry
10). -/
def Obligations.DeviceIsReplayOfHistory : Prop :=
  ∀ (n : Nat) (s t : State), (∀ e ∈ s.inputs, e ≠ .powerLoss ∧ e ≠ .reset true) →
    Host.Core.run Sys2Proof.core n s = .next t →
    ∃ ev, t.history = s.history ++ ev ∧ t.device = ev.foldl replayEvent s.device

/-- 20_memory.md R75, 40_register_codec.md R116, R117: with the device answering three calls from its registers, a
field set is read back as set, both commands complete with OK, every other register is as before, and so is every
bit of the field's register outside the field. That a device may answer so, also across a write of SD = 1, is the
model's choice (log entries 2 and 9); a device that forgets its configuration on shutdown does not. That the reads
change nothing of the device is its choice too (log entry 3), and so are the own steps that end the settle wait (log
entry 5). -/
def Obligations.FieldSetIsReadBack : Prop :=
  ∀ (f : Field) (x : Word32) (s : State) (rest : List Answer),
    f.writable = true → enc f x ≠ none → s.answers = .held :: .held :: .held :: rest →
    ∃ t u, exec (.setField f x) s = .next t ∧ t.afterSettle.rspStatus = 0 ∧ t.afterSettle.phase = .idle ∧
      exec (.getField f) t.afterSettle = .next u ∧ u.rspStatus = 0 ∧ u.rspResult = x ∧
      (∀ r : RegAddr, r ≠ fieldReg f → deviceRead u.device r = deviceRead s.device r) ∧
      deviceRead u.device (fieldReg f) &&& ~~~placedMask f =
        deviceRead s.device (fieldReg f) &&& ~~~placedMask f ∧
      ∀ g : Field, g ≠ f →
        fieldOf g (deviceRead u.device (fieldReg g)) = fieldOf g (deviceRead s.device (fieldReg g))

/-- Device power loss leaves the block as it is and the device with contents of which nothing is known
(60_exceptions.md R213, 10_state.md R48; log entry 11). That a call in flight stays in flight is the model's choice
(log entry 21). -/
def Obligations.PowerLossIsInvisibleToTheBlock : Prop :=
  ∀ (s : State) (rest : List Input), s.inputs = .powerLoss :: rest →
    step s = .next { s with inputs := rest, device := hardware.deviceInit (s.powerCycles + 1)
                            powerCycles := s.powerCycles + 1 }

/-! ### The machine as a whole -/

/-- 60_exceptions.md R201: a command that completes does so with one of its statuses. -/
def Obligations.CommandCompletesWithItsStatuses : Prop :=
  ∀ (i : Instr) (s t : State), i.wellFormed = true → exec i s = .next t → t.phase = .idle →
    ∃ st ∈ allowedStatuses i, t.rspStatus = st.code

/-- 60_exceptions.md R205, 40_register_codec.md R121: a command that completes with a status other than OK changes
nothing of the block but the response, PHASE and BUSY, and no write of it landed. That no device register at all is
changed is the model's choice (log entry 3): by R205 the reads before the error may have had side effects on the
device (20_memory.md R65). The clauses on the call in flight, the step to come, the settle wait, the inputs and the
power losses are of the model's own fields (log entries 4, 5, 7 and 11). -/
def Obligations.ErrorLeavesBlockAndDevice : Prop :=
  ∀ (i : Instr) (s t : State), exec i s = .next t → t.phase = .idle → t.rspStatus ≠ 0 →
    t.device = s.device ∧ t.cw = s.cw ∧ t.opd = s.opd ∧ t.inflight = s.inflight ∧
    t.progress = s.progress ∧ t.settleResult = s.settleResult ∧ t.settleDone = s.settleDone ∧
    t.inputs = s.inputs ∧ t.powerCycles = s.powerCycles ∧
    t.rspResult = 0 ∧ t.rspValid = true ∧ t.busy = false ∧
    ∃ ev, t.history = s.history ++ ev ∧ ∀ dev a v, Event.write dev a v true ∉ ev

/-- 60_exceptions.md R216: every command ends in exactly one of the three ways, after at most two transport calls
and at most one settle wait, whose end completes it with OK. Taken one step at a time (00_scope.md R14), a presented
command, legal or not, ends within three own steps in the state that it reaches all at once, and each own step
starts at most one call (20_memory.md R71); `progress`, the model's own field, is left only in a stuck block. The
two kinds of presentation are the model's (log entry 4). So are the two own steps that end a settle wait (log entry
5), and that a stuck block's own step is a step to the same state (log entry 6). -/
def Obligations.CommandEndsInOneOfThreeWays : Prop :=
  (∀ (i : Instr) (s : State), ∃ t, exec i s = .next t ∧
    t.callIndex ≤ s.callIndex + 2 ∧
    ((t.phase = .idle ∧ t.busy = false ∧ t.rspValid = true) ∨
     (t.phase = .settle ∧ t.busy = true ∧ (ownStep t).phase = .settle ∧ t.afterSettle.phase = .idle ∧
      t.afterSettle.busy = false ∧ t.afterSettle.rspValid = true ∧ t.afterSettle.rspStatus = 0) ∨
     (t.phase = .exec ∧ t.busy = true ∧ t.inflight.isSome = true ∧ ownStep t = t))) ∧
  (∀ (s : State) (cw opd : Word32), s.busy = false → s.inflight = none →
    ∃ t u n, n ≤ 3 ∧
      step { s with inputs := [.present cw opd] } = .next t ∧
      Host.Core.run Sys2Proof.core (n + 1) { s with inputs := [.presentStepwise cw opd] } = .next u ∧
      u = { t with progress := u.progress } ∧ (u.phase ≠ .exec → u.progress = none)) ∧
  (∀ s : State, (ownStep s).callIndex ≤ s.callIndex + 1)

/-- 60_exceptions.md R216: with every transport call answered, by a value, an error or the device, and the settle
wait ended, every command completes. That answers are listed, and that two own steps end the settle wait, are the
model's choices (log entries 1 and 5). -/
def Obligations.AnsweredCommandCompletes : Prop :=
  ∀ (i : Instr) (s : State) (a₁ a₂ : Answer) (rest : List Answer),
    s.answers = a₁ :: a₂ :: rest → a₁ ≠ .silent → a₂ ≠ .silent →
    ∃ t, exec i s = .next t ∧ t.afterSettle.phase = .idle ∧ t.afterSettle.busy = false ∧
      t.afterSettle.rspValid = true

/-- 10_state.md R21: no command writes `CW` or `OPD`; and none takes an input or a power loss. The list of inputs
and the count of power losses are the model's own fields (log entries 7 and 11). -/
def Obligations.CommandsKeepTheirWords : Prop :=
  ∀ (i : Instr) (s t : State), exec i s = .next t →
    t.cw = s.cw ∧ t.opd = s.opd ∧ t.inputs = s.inputs ∧ t.powerCycles = s.powerCycles

/-- 10_state.md R27: the outcome of a command does not depend on the response registers it finds: a completed
command leaves the same state whatever they held, and a command in progress the same state but for them. That a
command in progress leaves RSP_STATUS and RSP_RESULT as they were is the model's reading (log entry 12), which a
reader may not rely on. -/
def Obligations.CommandsIgnoreEarlierResponse : Prop :=
  ∀ (i : Instr) (s : State) (valid : Bool) (status : BitVec 3) (result : Word32),
    ∃ t, exec i s = .next t ∧
      exec i { s with rspValid := valid, rspStatus := status, rspResult := result } =
        .next (if t.phase = .idle then t
          else { t with rspValid := valid, rspStatus := status, rspResult := result })

/-- The reset state meets the invariant (10_state.md R24, R49). The reset values of the model's own fields and of
the history are its choice (log entries 4 and 10). -/
def Obligations.ResetMeetsInvariant : Prop := Inv State.reset

/-- Every step keeps the invariant (10_state.md R23, R24; 20_memory.md R69; 30_encoding.md R96; 60_exceptions.md
R200): `BUSY` agrees with `PHASE`, a valid response is there only when idle, status 7 never appears, an error has
result 0, and every transport record names `DEV_ADDR` and a register the block may read or write. The clauses on the
call in flight and on the step to come are the model's (log entry 4). That the result stays 0 beside an error status
also while the next command runs is its reading (log entry 12), and that the records are kept over a block reset is
its choice (log entry 10). -/
def Obligations.StepKeepsInvariant : Prop :=
  ∀ s t : State, Inv s → step s = .next t → Inv t

/-- The machine never stops: every step of every state answers a next state (60_exceptions.md R203, R206: no
error is fatal; log entry 6: an idle or stuck block stays as it is). -/
def Obligations.StepAlwaysAnswersNext : Prop :=
  ∀ s : State, ∃ t, step s = .next t

/-- Over any run the history only grows (20_memory.md R66, R71), by at most two records a step, because a command
makes at most two calls (20_memory.md R69, 60_exceptions.md R216) and one step of the machine runs at most one
command (log entry 4, the model's choice). That a block reset keeps the history is the model's choice too (log entry
10), as is the settle event's step (log entry 5). -/
def Obligations.HistoryOnlyGrows : Prop :=
  ∀ (n : Nat) (s t : State), Host.Core.run Sys2Proof.core n s = .next t →
    ∃ ev, t.history = s.history ++ ev ∧ ev.length ≤ 2 * n
end

