-- ==== Sys2Proof/Laws/PerInstr.lean ====
section
/-! SUPPORT. Facts about every command, one lemma for each constructor of `Instr` (LAWS.json). -/

namespace Sys2Proof.Laws

open Sys2Proof

/-! ### The fields of an encoded command word -/

theorem cwOp_commandWord (op sel : BitVec 4) (g : BitVec 2) (t : BitVec 4) :
    cwOp (commandWord op sel g t) = op := by
  unfold cwOp commandWord
  ext i hi
  have h1 : i < 32 := by omega
  have h2 : i < 8 := by omega
  have h3 : i < 10 := by omega
  simp [h1, h2, h3, hi]

theorem cwRsv_commandWord (op sel : BitVec 4) (g : BitVec 2) (t : BitVec 4) :
    cwRsv (commandWord op sel g t) = 0 := by
  unfold cwRsv commandWord
  ext i hi
  have e1 : op.getLsbD (14 + i) = false := BitVec.getLsbD_of_ge _ _ (by omega)
  have e2 : sel.getLsbD (14 + i - 4) = false := BitVec.getLsbD_of_ge _ _ (by omega)
  have e3 : g.getLsbD (14 + i - 8) = false := BitVec.getLsbD_of_ge _ _ (by omega)
  have e4 : t.getLsbD (14 + i - 10) = false := BitVec.getLsbD_of_ge _ _ (by omega)
  simp [e1, e2, e3, e4]

/-- An encoded command carries its opcode in `CW[3:0]` and zeros in `CW[31:14]` (30_encoding.md R81, R83). -/
def EncodedOpcode.Statement (i : Instr) : Prop :=
  cwOp (encode i).1 = i.opcode ∧ cwRsv (encode i).1 = 0

theorem EncodedOpcode.encodeField (f : Field) (x : Word32) :
    EncodedOpcode.Statement (.encodeField f x) :=
  ⟨cwOp_commandWord _ _ _ _, cwRsv_commandWord _ _ _ _⟩

theorem EncodedOpcode.decodeField (f : Field) (v : Reg16) :
    EncodedOpcode.Statement (.decodeField f v) :=
  ⟨cwOp_commandWord _ _ _ _, cwRsv_commandWord _ _ _ _⟩

theorem EncodedOpcode.applyField (f : Field) (v b : Reg16) :
    EncodedOpcode.Statement (.applyField f v b) :=
  ⟨cwOp_commandWord _ _ _ _, cwRsv_commandWord _ _ _ _⟩

theorem EncodedOpcode.rawToLux (g : Gain) (t : BitVec 4) (raw : Reg16) :
    EncodedOpcode.Statement (.rawToLux g t raw) :=
  ⟨cwOp_commandWord _ _ _ _, cwRsv_commandWord _ _ _ _⟩

theorem EncodedOpcode.luxToRaw (g : Gain) (t : BitVec 4) (lux : Word32) :
    EncodedOpcode.Statement (.luxToRaw g t lux) :=
  ⟨cwOp_commandWord _ _ _ _, cwRsv_commandWord _ _ _ _⟩

theorem EncodedOpcode.setField (f : Field) (x : Word32) :
    EncodedOpcode.Statement (.setField f x) :=
  ⟨cwOp_commandWord _ _ _ _, cwRsv_commandWord _ _ _ _⟩

theorem EncodedOpcode.getField (f : Field) : EncodedOpcode.Statement (.getField f) :=
  ⟨cwOp_commandWord _ _ _ _, cwRsv_commandWord _ _ _ _⟩

theorem EncodedOpcode.readLux : EncodedOpcode.Statement .readLux :=
  ⟨cwOp_commandWord _ _ _ _, cwRsv_commandWord _ _ _ _⟩

theorem EncodedOpcode.readRaw (a : RegAddr) : EncodedOpcode.Statement (.readRaw a) :=
  ⟨cwOp_commandWord _ _ _ _, cwRsv_commandWord _ _ _ _⟩

theorem EncodedOpcode.setThresh (sel : Threshold) (lux : Word32) :
    EncodedOpcode.Statement (.setThresh sel lux) :=
  ⟨cwOp_commandWord _ _ _ _, cwRsv_commandWord _ _ _ _⟩

end Sys2Proof.Laws
end

