-- ==== Sys2Proof/Laws/Decode.lean ====
section
/-! SUPPORT. The fields of an encoded command word, and the inverses of the operand codes. -/

namespace Sys2Proof.Laws

open Sys2Proof

theorem cwSel_commandWord (op sel : BitVec 4) (g : BitVec 2) (t : BitVec 4) :
    cwSel (commandWord op sel g t) = sel := by
  unfold cwSel commandWord
  ext i hi
  have h1 : 4 + i < 32 := by omega
  have h2 : 4 + i < 8 := by omega
  have h3 : 4 + i < 10 := by omega
  simp [h1, h2, h3, hi]

theorem cwGcode_commandWord (op sel : BitVec 4) (g : BitVec 2) (t : BitVec 4) :
    cwGcode (commandWord op sel g t) = g := by
  unfold cwGcode commandWord
  ext i hi
  have e1 : op.getLsbD (8 + i) = false := BitVec.getLsbD_of_ge _ _ (by omega)
  have e2 : sel.getLsbD (8 + i - 4) = false := BitVec.getLsbD_of_ge _ _ (by omega)
  have h1 : 8 + i < 32 := by omega
  have h3 : 8 + i < 10 := by omega
  simp [e1, e2, h1, h3, hi]

theorem cwItcode_commandWord (op sel : BitVec 4) (g : BitVec 2) (t : BitVec 4) :
    cwItcode (commandWord op sel g t) = t := by
  unfold cwItcode commandWord
  ext i hi
  have e1 : op.getLsbD (10 + i) = false := BitVec.getLsbD_of_ge _ _ (by omega)
  have e2 : sel.getLsbD (10 + i - 4) = false := BitVec.getLsbD_of_ge _ _ (by omega)
  have e3 : g.getLsbD (10 + i - 8) = false := BitVec.getLsbD_of_ge _ _ (by omega)
  have h1 : 10 + i < 32 := by omega
  simp [e1, e2, e3, h1, hi]

@[simp] theorem Field_ofId_id (f : Field) : Field.ofId f.id = some f := by
  cases f <;> rfl

@[simp] theorem RegAddr_ofSel_sel (a : RegAddr) : RegAddr.ofSel a.sel = some a := by
  cases a <;> rfl

@[simp] theorem Threshold_ofSel_sel (t : Threshold) : Threshold.ofSel t.sel = some t := by
  cases t <;> rfl

@[simp] theorem Gain_ofCode_code (g : Gain) : Gain.ofCode g.code = g := by
  cases g <;> rfl

@[simp] theorem Gain_code_ofCode (c : BitVec 2) : (Gain.ofCode c).code = c := by
  revert c
  decide

theorem Field_id_of_ofId {sel : BitVec 4} {f : Field} (h : Field.ofId sel = some f) : f.id = sel := by
  revert sel f
  decide

theorem RegAddr_sel_of_ofSel {sel : BitVec 4} {a : RegAddr} (h : RegAddr.ofSel sel = some a) :
    a.sel = sel := by
  revert sel a
  decide

theorem Threshold_sel_of_ofSel {sel : BitVec 4} {t : Threshold} (h : Threshold.ofSel sel = some t) :
    t.sel = sel := by
  revert sel t
  decide

end Sys2Proof.Laws
end

