-- ==== Sys2Proof/Laws/State.lean ====
section
/-! SUPPORT. One lemma for each field of State under each update, so that no later proof unfolds a record
update. -/

namespace Sys2Proof.Machine

open Sys2Proof

/-! ### `accept` -/

@[simp] theorem accept_cw (cw opd : Word32) (s : State) : (accept cw opd s).cw = cw := rfl
@[simp] theorem accept_opd (cw opd : Word32) (s : State) : (accept cw opd s).opd = opd := rfl
@[simp] theorem accept_busy (cw opd : Word32) (s : State) : (accept cw opd s).busy = true := rfl
@[simp] theorem accept_rspValid (cw opd : Word32) (s : State) : (accept cw opd s).rspValid = false := rfl
@[simp] theorem accept_rspStatus (cw opd : Word32) (s : State) :
    (accept cw opd s).rspStatus = s.rspStatus := rfl
@[simp] theorem accept_rspResult (cw opd : Word32) (s : State) :
    (accept cw opd s).rspResult = s.rspResult := rfl
@[simp] theorem accept_phase (cw opd : Word32) (s : State) : (accept cw opd s).phase = .exec := rfl
@[simp] theorem accept_inflight (cw opd : Word32) (s : State) : (accept cw opd s).inflight = s.inflight := rfl
@[simp] theorem accept_progress (cw opd : Word32) (s : State) : (accept cw opd s).progress = s.progress := rfl
@[simp] theorem accept_settleResult (cw opd : Word32) (s : State) :
    (accept cw opd s).settleResult = s.settleResult := rfl
@[simp] theorem accept_settleDone (cw opd : Word32) (s : State) :
    (accept cw opd s).settleDone = s.settleDone := rfl
@[simp] theorem accept_device (cw opd : Word32) (s : State) : (accept cw opd s).device = s.device := rfl
@[simp] theorem accept_history (cw opd : Word32) (s : State) : (accept cw opd s).history = s.history := rfl
@[simp] theorem accept_inputs (cw opd : Word32) (s : State) : (accept cw opd s).inputs = s.inputs := rfl
@[simp] theorem accept_answers (cw opd : Word32) (s : State) : (accept cw opd s).answers = s.answers := rfl
@[simp] theorem accept_callIndex (cw opd : Word32) (s : State) :
    (accept cw opd s).callIndex = s.callIndex := rfl
@[simp] theorem accept_powerCycles (cw opd : Word32) (s : State) :
    (accept cw opd s).powerCycles = s.powerCycles := rfl

/-! ### `finish` -/

@[simp] theorem finish_cw (r : Word32) (s : State) : (finish r s).cw = s.cw := rfl
@[simp] theorem finish_opd (r : Word32) (s : State) : (finish r s).opd = s.opd := rfl
@[simp] theorem finish_busy (r : Word32) (s : State) : (finish r s).busy = false := rfl
@[simp] theorem finish_rspValid (r : Word32) (s : State) : (finish r s).rspValid = true := rfl
@[simp] theorem finish_rspStatus (r : Word32) (s : State) : (finish r s).rspStatus = 0 := rfl
@[simp] theorem finish_rspResult (r : Word32) (s : State) : (finish r s).rspResult = r := rfl
@[simp] theorem finish_phase (r : Word32) (s : State) : (finish r s).phase = .idle := rfl
@[simp] theorem finish_inflight (r : Word32) (s : State) : (finish r s).inflight = s.inflight := rfl
@[simp] theorem finish_progress (r : Word32) (s : State) : (finish r s).progress = s.progress := rfl
@[simp] theorem finish_settleResult (r : Word32) (s : State) :
    (finish r s).settleResult = s.settleResult := rfl
@[simp] theorem finish_settleDone (r : Word32) (s : State) : (finish r s).settleDone = s.settleDone := rfl
@[simp] theorem finish_device (r : Word32) (s : State) : (finish r s).device = s.device := rfl
@[simp] theorem finish_history (r : Word32) (s : State) : (finish r s).history = s.history := rfl
@[simp] theorem finish_inputs (r : Word32) (s : State) : (finish r s).inputs = s.inputs := rfl
@[simp] theorem finish_answers (r : Word32) (s : State) : (finish r s).answers = s.answers := rfl
@[simp] theorem finish_callIndex (r : Word32) (s : State) : (finish r s).callIndex = s.callIndex := rfl
@[simp] theorem finish_powerCycles (r : Word32) (s : State) : (finish r s).powerCycles = s.powerCycles := rfl

/-! ### `raise` -/

@[simp] theorem raise_cw (st : Status) (s : State) : (raise st s).cw = s.cw := rfl
@[simp] theorem raise_opd (st : Status) (s : State) : (raise st s).opd = s.opd := rfl
@[simp] theorem raise_busy (st : Status) (s : State) : (raise st s).busy = false := rfl
@[simp] theorem raise_rspValid (st : Status) (s : State) : (raise st s).rspValid = true := rfl
@[simp] theorem raise_rspStatus (st : Status) (s : State) : (raise st s).rspStatus = st.code := rfl
@[simp] theorem raise_rspResult (st : Status) (s : State) : (raise st s).rspResult = 0 := rfl
@[simp] theorem raise_phase (st : Status) (s : State) : (raise st s).phase = .idle := rfl
@[simp] theorem raise_inflight (st : Status) (s : State) : (raise st s).inflight = s.inflight := rfl
@[simp] theorem raise_progress (st : Status) (s : State) : (raise st s).progress = s.progress := rfl
@[simp] theorem raise_settleResult (st : Status) (s : State) :
    (raise st s).settleResult = s.settleResult := rfl
@[simp] theorem raise_settleDone (st : Status) (s : State) : (raise st s).settleDone = s.settleDone := rfl
@[simp] theorem raise_device (st : Status) (s : State) : (raise st s).device = s.device := rfl
@[simp] theorem raise_history (st : Status) (s : State) : (raise st s).history = s.history := rfl
@[simp] theorem raise_inputs (st : Status) (s : State) : (raise st s).inputs = s.inputs := rfl
@[simp] theorem raise_answers (st : Status) (s : State) : (raise st s).answers = s.answers := rfl
@[simp] theorem raise_callIndex (st : Status) (s : State) : (raise st s).callIndex = s.callIndex := rfl
@[simp] theorem raise_powerCycles (st : Status) (s : State) : (raise st s).powerCycles = s.powerCycles := rfl

/-! ### `startCall` -/

@[simp] theorem startCall_cw (s : State) : (startCall s).cw = s.cw := rfl
@[simp] theorem startCall_opd (s : State) : (startCall s).opd = s.opd := rfl
@[simp] theorem startCall_busy (s : State) : (startCall s).busy = s.busy := rfl
@[simp] theorem startCall_rspValid (s : State) : (startCall s).rspValid = s.rspValid := rfl
@[simp] theorem startCall_rspStatus (s : State) : (startCall s).rspStatus = s.rspStatus := rfl
@[simp] theorem startCall_rspResult (s : State) : (startCall s).rspResult = s.rspResult := rfl
@[simp] theorem startCall_phase (s : State) : (startCall s).phase = s.phase := rfl
@[simp] theorem startCall_inflight (s : State) : (startCall s).inflight = s.inflight := rfl
@[simp] theorem startCall_progress (s : State) : (startCall s).progress = s.progress := rfl
@[simp] theorem startCall_settleResult (s : State) : (startCall s).settleResult = s.settleResult := rfl
@[simp] theorem startCall_settleDone (s : State) : (startCall s).settleDone = s.settleDone := rfl
@[simp] theorem startCall_device (s : State) : (startCall s).device = s.device := rfl
@[simp] theorem startCall_history (s : State) : (startCall s).history = s.history := rfl
@[simp] theorem startCall_inputs (s : State) : (startCall s).inputs = s.inputs := rfl
@[simp] theorem startCall_answers (s : State) : (startCall s).answers = s.answers.tail := rfl
@[simp] theorem startCall_callIndex (s : State) : (startCall s).callIndex = s.callIndex + 1 := rfl
@[simp] theorem startCall_powerCycles (s : State) : (startCall s).powerCycles = s.powerCycles := rfl

/-! ### `record` -/

@[simp] theorem record_cw (e : Event) (s : State) : (record e s).cw = s.cw := rfl
@[simp] theorem record_opd (e : Event) (s : State) : (record e s).opd = s.opd := rfl
@[simp] theorem record_busy (e : Event) (s : State) : (record e s).busy = s.busy := rfl
@[simp] theorem record_rspValid (e : Event) (s : State) : (record e s).rspValid = s.rspValid := rfl
@[simp] theorem record_rspStatus (e : Event) (s : State) : (record e s).rspStatus = s.rspStatus := rfl
@[simp] theorem record_rspResult (e : Event) (s : State) : (record e s).rspResult = s.rspResult := rfl
@[simp] theorem record_phase (e : Event) (s : State) : (record e s).phase = s.phase := rfl
@[simp] theorem record_inflight (e : Event) (s : State) : (record e s).inflight = s.inflight := rfl
@[simp] theorem record_progress (e : Event) (s : State) : (record e s).progress = s.progress := rfl
@[simp] theorem record_settleResult (e : Event) (s : State) :
    (record e s).settleResult = s.settleResult := rfl
@[simp] theorem record_settleDone (e : Event) (s : State) : (record e s).settleDone = s.settleDone := rfl
@[simp] theorem record_device (e : Event) (s : State) : (record e s).device = s.device := rfl
@[simp] theorem record_history (e : Event) (s : State) : (record e s).history = s.history ++ [e] := rfl
@[simp] theorem record_inputs (e : Event) (s : State) : (record e s).inputs = s.inputs := rfl
@[simp] theorem record_answers (e : Event) (s : State) : (record e s).answers = s.answers := rfl
@[simp] theorem record_callIndex (e : Event) (s : State) : (record e s).callIndex = s.callIndex := rfl
@[simp] theorem record_powerCycles (e : Event) (s : State) : (record e s).powerCycles = s.powerCycles := rfl

/-! ### `hang` -/

@[simp] theorem hang_cw (c : BusCall) (s : State) : (hang c s).cw = s.cw := rfl
@[simp] theorem hang_opd (c : BusCall) (s : State) : (hang c s).opd = s.opd := rfl
@[simp] theorem hang_busy (c : BusCall) (s : State) : (hang c s).busy = true := rfl
@[simp] theorem hang_rspValid (c : BusCall) (s : State) : (hang c s).rspValid = s.rspValid := rfl
@[simp] theorem hang_rspStatus (c : BusCall) (s : State) : (hang c s).rspStatus = s.rspStatus := rfl
@[simp] theorem hang_rspResult (c : BusCall) (s : State) : (hang c s).rspResult = s.rspResult := rfl
@[simp] theorem hang_phase (c : BusCall) (s : State) : (hang c s).phase = .exec := rfl
@[simp] theorem hang_inflight (c : BusCall) (s : State) : (hang c s).inflight = some c := rfl
@[simp] theorem hang_progress (c : BusCall) (s : State) : (hang c s).progress = s.progress := rfl
@[simp] theorem hang_settleResult (c : BusCall) (s : State) : (hang c s).settleResult = s.settleResult := rfl
@[simp] theorem hang_settleDone (c : BusCall) (s : State) : (hang c s).settleDone = s.settleDone := rfl
@[simp] theorem hang_device (c : BusCall) (s : State) : (hang c s).device = s.device := rfl
@[simp] theorem hang_history (c : BusCall) (s : State) : (hang c s).history = s.history := rfl
@[simp] theorem hang_inputs (c : BusCall) (s : State) : (hang c s).inputs = s.inputs := rfl
@[simp] theorem hang_answers (c : BusCall) (s : State) : (hang c s).answers = s.answers := rfl
@[simp] theorem hang_callIndex (c : BusCall) (s : State) : (hang c s).callIndex = s.callIndex := rfl
@[simp] theorem hang_powerCycles (c : BusCall) (s : State) : (hang c s).powerCycles = s.powerCycles := rfl

/-! ### `land` -/

@[simp] theorem land_cw (a : RegAddr) (v : Reg16) (s : State) : (land a v s).cw = s.cw := rfl
@[simp] theorem land_opd (a : RegAddr) (v : Reg16) (s : State) : (land a v s).opd = s.opd := rfl
@[simp] theorem land_busy (a : RegAddr) (v : Reg16) (s : State) : (land a v s).busy = s.busy := rfl
@[simp] theorem land_rspValid (a : RegAddr) (v : Reg16) (s : State) :
    (land a v s).rspValid = s.rspValid := rfl
@[simp] theorem land_rspStatus (a : RegAddr) (v : Reg16) (s : State) :
    (land a v s).rspStatus = s.rspStatus := rfl
@[simp] theorem land_rspResult (a : RegAddr) (v : Reg16) (s : State) :
    (land a v s).rspResult = s.rspResult := rfl
@[simp] theorem land_phase (a : RegAddr) (v : Reg16) (s : State) : (land a v s).phase = s.phase := rfl
@[simp] theorem land_inflight (a : RegAddr) (v : Reg16) (s : State) :
    (land a v s).inflight = s.inflight := rfl
@[simp] theorem land_progress (a : RegAddr) (v : Reg16) (s : State) :
    (land a v s).progress = s.progress := rfl
@[simp] theorem land_settleResult (a : RegAddr) (v : Reg16) (s : State) :
    (land a v s).settleResult = s.settleResult := rfl
@[simp] theorem land_settleDone (a : RegAddr) (v : Reg16) (s : State) :
    (land a v s).settleDone = s.settleDone := rfl
@[simp] theorem land_device (a : RegAddr) (v : Reg16) (s : State) :
    (land a v s).device = deviceWrite s.device a v := rfl
@[simp] theorem land_history (a : RegAddr) (v : Reg16) (s : State) : (land a v s).history = s.history := rfl
@[simp] theorem land_inputs (a : RegAddr) (v : Reg16) (s : State) : (land a v s).inputs = s.inputs := rfl
@[simp] theorem land_answers (a : RegAddr) (v : Reg16) (s : State) : (land a v s).answers = s.answers := rfl
@[simp] theorem land_callIndex (a : RegAddr) (v : Reg16) (s : State) :
    (land a v s).callIndex = s.callIndex := rfl
@[simp] theorem land_powerCycles (a : RegAddr) (v : Reg16) (s : State) :
    (land a v s).powerCycles = s.powerCycles := rfl

/-! ### `enterSettle` -/

@[simp] theorem enterSettle_cw (r : Word32) (s : State) : (enterSettle r s).cw = s.cw := rfl
@[simp] theorem enterSettle_opd (r : Word32) (s : State) : (enterSettle r s).opd = s.opd := rfl
@[simp] theorem enterSettle_busy (r : Word32) (s : State) : (enterSettle r s).busy = true := rfl
@[simp] theorem enterSettle_rspValid (r : Word32) (s : State) : (enterSettle r s).rspValid = s.rspValid := rfl
@[simp] theorem enterSettle_rspStatus (r : Word32) (s : State) :
    (enterSettle r s).rspStatus = s.rspStatus := rfl
@[simp] theorem enterSettle_rspResult (r : Word32) (s : State) :
    (enterSettle r s).rspResult = s.rspResult := rfl
@[simp] theorem enterSettle_phase (r : Word32) (s : State) : (enterSettle r s).phase = .settle := rfl
@[simp] theorem enterSettle_inflight (r : Word32) (s : State) : (enterSettle r s).inflight = s.inflight := rfl
@[simp] theorem enterSettle_progress (r : Word32) (s : State) : (enterSettle r s).progress = s.progress := rfl
@[simp] theorem enterSettle_settleResult (r : Word32) (s : State) : (enterSettle r s).settleResult = r := rfl
@[simp] theorem enterSettle_settleDone (r : Word32) (s : State) : (enterSettle r s).settleDone = false := rfl
@[simp] theorem enterSettle_device (r : Word32) (s : State) : (enterSettle r s).device = s.device := rfl
@[simp] theorem enterSettle_history (r : Word32) (s : State) : (enterSettle r s).history = s.history := rfl
@[simp] theorem enterSettle_inputs (r : Word32) (s : State) : (enterSettle r s).inputs = s.inputs := rfl
@[simp] theorem enterSettle_answers (r : Word32) (s : State) : (enterSettle r s).answers = s.answers := rfl
@[simp] theorem enterSettle_callIndex (r : Word32) (s : State) :
    (enterSettle r s).callIndex = s.callIndex := rfl
@[simp] theorem enterSettle_powerCycles (r : Word32) (s : State) :
    (enterSettle r s).powerCycles = s.powerCycles := rfl

/-! ### `waitSettle` -/

@[simp] theorem waitSettle_cw (s : State) : (waitSettle s).cw = s.cw := rfl
@[simp] theorem waitSettle_opd (s : State) : (waitSettle s).opd = s.opd := rfl
@[simp] theorem waitSettle_busy (s : State) : (waitSettle s).busy = s.busy := rfl
@[simp] theorem waitSettle_rspValid (s : State) : (waitSettle s).rspValid = s.rspValid := rfl
@[simp] theorem waitSettle_rspStatus (s : State) : (waitSettle s).rspStatus = s.rspStatus := rfl
@[simp] theorem waitSettle_rspResult (s : State) : (waitSettle s).rspResult = s.rspResult := rfl
@[simp] theorem waitSettle_phase (s : State) : (waitSettle s).phase = s.phase := rfl
@[simp] theorem waitSettle_inflight (s : State) : (waitSettle s).inflight = s.inflight := rfl
@[simp] theorem waitSettle_progress (s : State) : (waitSettle s).progress = s.progress := rfl
@[simp] theorem waitSettle_settleResult (s : State) : (waitSettle s).settleResult = s.settleResult := rfl
@[simp] theorem waitSettle_settleDone (s : State) : (waitSettle s).settleDone = true := rfl
@[simp] theorem waitSettle_device (s : State) : (waitSettle s).device = s.device := rfl
@[simp] theorem waitSettle_history (s : State) : (waitSettle s).history = s.history ++ [.settle] := rfl
@[simp] theorem waitSettle_inputs (s : State) : (waitSettle s).inputs = s.inputs := rfl
@[simp] theorem waitSettle_answers (s : State) : (waitSettle s).answers = s.answers := rfl
@[simp] theorem waitSettle_callIndex (s : State) : (waitSettle s).callIndex = s.callIndex := rfl
@[simp] theorem waitSettle_powerCycles (s : State) : (waitSettle s).powerCycles = s.powerCycles := rfl

/-! ### `awaitStep` -/

@[simp] theorem awaitStep_cw (l : List (Option Reg16)) (s : State) : (awaitStep l s).cw = s.cw := rfl
@[simp] theorem awaitStep_opd (l : List (Option Reg16)) (s : State) : (awaitStep l s).opd = s.opd := rfl
@[simp] theorem awaitStep_busy (l : List (Option Reg16)) (s : State) : (awaitStep l s).busy = s.busy := rfl
@[simp] theorem awaitStep_rspValid (l : List (Option Reg16)) (s : State) :
    (awaitStep l s).rspValid = s.rspValid := rfl
@[simp] theorem awaitStep_rspStatus (l : List (Option Reg16)) (s : State) :
    (awaitStep l s).rspStatus = s.rspStatus := rfl
@[simp] theorem awaitStep_rspResult (l : List (Option Reg16)) (s : State) :
    (awaitStep l s).rspResult = s.rspResult := rfl
@[simp] theorem awaitStep_phase (l : List (Option Reg16)) (s : State) : (awaitStep l s).phase = s.phase := rfl
@[simp] theorem awaitStep_inflight (l : List (Option Reg16)) (s : State) :
    (awaitStep l s).inflight = s.inflight := rfl
@[simp] theorem awaitStep_progress (l : List (Option Reg16)) (s : State) :
    (awaitStep l s).progress = some l := rfl
@[simp] theorem awaitStep_settleResult (l : List (Option Reg16)) (s : State) :
    (awaitStep l s).settleResult = s.settleResult := rfl
@[simp] theorem awaitStep_settleDone (l : List (Option Reg16)) (s : State) :
    (awaitStep l s).settleDone = s.settleDone := rfl
@[simp] theorem awaitStep_device (l : List (Option Reg16)) (s : State) :
    (awaitStep l s).device = s.device := rfl
@[simp] theorem awaitStep_history (l : List (Option Reg16)) (s : State) :
    (awaitStep l s).history = s.history := rfl
@[simp] theorem awaitStep_inputs (l : List (Option Reg16)) (s : State) :
    (awaitStep l s).inputs = s.inputs := rfl
@[simp] theorem awaitStep_answers (l : List (Option Reg16)) (s : State) :
    (awaitStep l s).answers = s.answers := rfl
@[simp] theorem awaitStep_callIndex (l : List (Option Reg16)) (s : State) :
    (awaitStep l s).callIndex = s.callIndex := rfl
@[simp] theorem awaitStep_powerCycles (l : List (Option Reg16)) (s : State) :
    (awaitStep l s).powerCycles = s.powerCycles := rfl

/-! ### `leaveSteps` -/

@[simp] theorem leaveSteps_cw (s : State) : (leaveSteps s).cw = s.cw := rfl
@[simp] theorem leaveSteps_opd (s : State) : (leaveSteps s).opd = s.opd := rfl
@[simp] theorem leaveSteps_busy (s : State) : (leaveSteps s).busy = s.busy := rfl
@[simp] theorem leaveSteps_rspValid (s : State) : (leaveSteps s).rspValid = s.rspValid := rfl
@[simp] theorem leaveSteps_rspStatus (s : State) : (leaveSteps s).rspStatus = s.rspStatus := rfl
@[simp] theorem leaveSteps_rspResult (s : State) : (leaveSteps s).rspResult = s.rspResult := rfl
@[simp] theorem leaveSteps_phase (s : State) : (leaveSteps s).phase = s.phase := rfl
@[simp] theorem leaveSteps_inflight (s : State) : (leaveSteps s).inflight = s.inflight := rfl
@[simp] theorem leaveSteps_progress (s : State) : (leaveSteps s).progress = none := rfl
@[simp] theorem leaveSteps_settleResult (s : State) : (leaveSteps s).settleResult = s.settleResult := rfl
@[simp] theorem leaveSteps_settleDone (s : State) : (leaveSteps s).settleDone = s.settleDone := rfl
@[simp] theorem leaveSteps_device (s : State) : (leaveSteps s).device = s.device := rfl
@[simp] theorem leaveSteps_history (s : State) : (leaveSteps s).history = s.history := rfl
@[simp] theorem leaveSteps_inputs (s : State) : (leaveSteps s).inputs = s.inputs := rfl
@[simp] theorem leaveSteps_answers (s : State) : (leaveSteps s).answers = s.answers := rfl
@[simp] theorem leaveSteps_callIndex (s : State) : (leaveSteps s).callIndex = s.callIndex := rfl
@[simp] theorem leaveSteps_powerCycles (s : State) : (leaveSteps s).powerCycles = s.powerCycles := rfl

/-! ### `endSettle` -/

@[simp] theorem endSettle_cw (s : State) : (endSettle s).cw = s.cw := rfl
@[simp] theorem endSettle_opd (s : State) : (endSettle s).opd = s.opd := rfl
@[simp] theorem endSettle_busy (s : State) : (endSettle s).busy = false := rfl
@[simp] theorem endSettle_rspValid (s : State) : (endSettle s).rspValid = true := rfl
@[simp] theorem endSettle_rspStatus (s : State) : (endSettle s).rspStatus = 0 := rfl
@[simp] theorem endSettle_rspResult (s : State) : (endSettle s).rspResult = s.settleResult := rfl
@[simp] theorem endSettle_phase (s : State) : (endSettle s).phase = .idle := rfl
@[simp] theorem endSettle_inflight (s : State) : (endSettle s).inflight = s.inflight := rfl
@[simp] theorem endSettle_progress (s : State) : (endSettle s).progress = s.progress := rfl
@[simp] theorem endSettle_settleResult (s : State) : (endSettle s).settleResult = s.settleResult := rfl
@[simp] theorem endSettle_settleDone (s : State) : (endSettle s).settleDone = s.settleDone := rfl
@[simp] theorem endSettle_device (s : State) : (endSettle s).device = s.device := rfl
@[simp] theorem endSettle_history (s : State) : (endSettle s).history = s.history := rfl
@[simp] theorem endSettle_inputs (s : State) : (endSettle s).inputs = s.inputs := rfl
@[simp] theorem endSettle_answers (s : State) : (endSettle s).answers = s.answers := rfl
@[simp] theorem endSettle_callIndex (s : State) : (endSettle s).callIndex = s.callIndex := rfl
@[simp] theorem endSettle_powerCycles (s : State) : (endSettle s).powerCycles = s.powerCycles := rfl

/-! ### `blockReset` -/

@[simp] theorem blockReset_cw (l : Bool) (s : State) : (blockReset l s).cw = 0 := rfl
@[simp] theorem blockReset_opd (l : Bool) (s : State) : (blockReset l s).opd = 0 := rfl
@[simp] theorem blockReset_busy (l : Bool) (s : State) : (blockReset l s).busy = false := rfl
@[simp] theorem blockReset_rspValid (l : Bool) (s : State) : (blockReset l s).rspValid = false := rfl
@[simp] theorem blockReset_rspStatus (l : Bool) (s : State) : (blockReset l s).rspStatus = 0 := rfl
@[simp] theorem blockReset_rspResult (l : Bool) (s : State) : (blockReset l s).rspResult = 0 := rfl
@[simp] theorem blockReset_phase (l : Bool) (s : State) : (blockReset l s).phase = .idle := rfl
@[simp] theorem blockReset_inflight (l : Bool) (s : State) : (blockReset l s).inflight = none := rfl
@[simp] theorem blockReset_progress (l : Bool) (s : State) : (blockReset l s).progress = none := rfl
@[simp] theorem blockReset_settleResult (l : Bool) (s : State) : (blockReset l s).settleResult = 0 := rfl
@[simp] theorem blockReset_settleDone (l : Bool) (s : State) : (blockReset l s).settleDone = false := rfl
@[simp] theorem blockReset_device (l : Bool) (s : State) :
    (blockReset l s).device = deviceAfterReset l s := rfl
@[simp] theorem blockReset_history (l : Bool) (s : State) : (blockReset l s).history = s.history := rfl
@[simp] theorem blockReset_inputs (l : Bool) (s : State) : (blockReset l s).inputs = s.inputs := rfl
@[simp] theorem blockReset_answers (l : Bool) (s : State) : (blockReset l s).answers = s.answers := rfl
@[simp] theorem blockReset_callIndex (l : Bool) (s : State) : (blockReset l s).callIndex = s.callIndex := rfl
@[simp] theorem blockReset_powerCycles (l : Bool) (s : State) :
    (blockReset l s).powerCycles = s.powerCycles := rfl

/-! ### `losePower` -/

@[simp] theorem losePower_cw (s : State) : (losePower s).cw = s.cw := rfl
@[simp] theorem losePower_opd (s : State) : (losePower s).opd = s.opd := rfl
@[simp] theorem losePower_busy (s : State) : (losePower s).busy = s.busy := rfl
@[simp] theorem losePower_rspValid (s : State) : (losePower s).rspValid = s.rspValid := rfl
@[simp] theorem losePower_rspStatus (s : State) : (losePower s).rspStatus = s.rspStatus := rfl
@[simp] theorem losePower_rspResult (s : State) : (losePower s).rspResult = s.rspResult := rfl
@[simp] theorem losePower_phase (s : State) : (losePower s).phase = s.phase := rfl
@[simp] theorem losePower_inflight (s : State) : (losePower s).inflight = s.inflight := rfl
@[simp] theorem losePower_progress (s : State) : (losePower s).progress = s.progress := rfl
@[simp] theorem losePower_settleResult (s : State) : (losePower s).settleResult = s.settleResult := rfl
@[simp] theorem losePower_settleDone (s : State) : (losePower s).settleDone = s.settleDone := rfl
@[simp] theorem losePower_device (s : State) :
    (losePower s).device = hardware.deviceInit (s.powerCycles + 1) := rfl
@[simp] theorem losePower_history (s : State) : (losePower s).history = s.history := rfl
@[simp] theorem losePower_inputs (s : State) : (losePower s).inputs = s.inputs := rfl
@[simp] theorem losePower_answers (s : State) : (losePower s).answers = s.answers := rfl
@[simp] theorem losePower_callIndex (s : State) : (losePower s).callIndex = s.callIndex := rfl
@[simp] theorem losePower_powerCycles (s : State) : (losePower s).powerCycles = s.powerCycles + 1 := rfl

/-! ### `presentNext` -/

@[simp] theorem presentNext_cw (cw opd : Word32) (s : State) : (presentNext cw opd s).cw = s.cw := rfl
@[simp] theorem presentNext_opd (cw opd : Word32) (s : State) : (presentNext cw opd s).opd = s.opd := rfl
@[simp] theorem presentNext_busy (cw opd : Word32) (s : State) : (presentNext cw opd s).busy = false := rfl
@[simp] theorem presentNext_rspValid (cw opd : Word32) (s : State) :
    (presentNext cw opd s).rspValid = s.rspValid := rfl
@[simp] theorem presentNext_rspStatus (cw opd : Word32) (s : State) :
    (presentNext cw opd s).rspStatus = s.rspStatus := rfl
@[simp] theorem presentNext_rspResult (cw opd : Word32) (s : State) :
    (presentNext cw opd s).rspResult = s.rspResult := rfl
@[simp] theorem presentNext_phase (cw opd : Word32) (s : State) : (presentNext cw opd s).phase = .idle := rfl
@[simp] theorem presentNext_inflight (cw opd : Word32) (s : State) :
    (presentNext cw opd s).inflight = none := rfl
@[simp] theorem presentNext_progress (cw opd : Word32) (s : State) :
    (presentNext cw opd s).progress = none := rfl
@[simp] theorem presentNext_settleResult (cw opd : Word32) (s : State) :
    (presentNext cw opd s).settleResult = s.settleResult := rfl
@[simp] theorem presentNext_settleDone (cw opd : Word32) (s : State) :
    (presentNext cw opd s).settleDone = s.settleDone := rfl
@[simp] theorem presentNext_device (cw opd : Word32) (s : State) :
    (presentNext cw opd s).device = s.device := rfl
@[simp] theorem presentNext_history (cw opd : Word32) (s : State) :
    (presentNext cw opd s).history = s.history := rfl
@[simp] theorem presentNext_inputs (cw opd : Word32) (s : State) :
    (presentNext cw opd s).inputs = .present cw opd :: s.inputs := rfl
@[simp] theorem presentNext_answers (cw opd : Word32) (s : State) :
    (presentNext cw opd s).answers = s.answers := rfl
@[simp] theorem presentNext_callIndex (cw opd : Word32) (s : State) :
    (presentNext cw opd s).callIndex = s.callIndex := rfl
@[simp] theorem presentNext_powerCycles (cw opd : Word32) (s : State) :
    (presentNext cw opd s).powerCycles = s.powerCycles := rfl

end Sys2Proof.Machine
end

