-- ==== Sys2Proof/Laws/Ops.lean ====
section
/-! SUPPORT. What each shared operation can do, said once, so that later proofs cite these lemmas and unfold no
operation. -/

namespace Sys2Proof.Machine

open Sys2Proof

/-! ### This hardware's parameters -/

@[simp] theorem hardware_devAddr : hardware.devAddr = Config.devAddr := rfl
@[simp] theorem hardware_resTable : hardware.resTable = resolution := rfl
@[simp] theorem hardware_kneeLux : hardware.kneeLux = 1000 := rfl
@[simp] theorem hardware_threshMaxLux : hardware.threshMaxLux = 120000 := rfl
@[simp] theorem hardware_threshOverflow : hardware.threshOverflow = .reject := rfl
@[simp] theorem hardware_deviceInit : hardware.deviceInit = Config.deviceInit := rfl

/-- Every resolution is between the least and the greatest entry of the table. -/
theorem resolution_bounds (g : Gain) (t : IntTime) : 36 ≤ resolution g t ∧ resolution g t ≤ 18432 := by
  cases g <;> cases t <;> decide

/-- The codes of no integration time. -/
theorem intTimeOf_eq_none {t : BitVec 4} : intTimeOf t = none ↔ t.toNat ∉ [0, 1, 2, 3, 8, 12] := by
  revert t
  decide

/-! ### Answers -/

theorem nextAnswer_of_cons {c : BusCall} {s : State} {a : Answer} {rest : List Answer}
    (h : s.answers = a :: rest) : nextAnswer c s = a := by
  simp [nextAnswer, h]

theorem nextAnswer_of_nil {c : BusCall} {s : State} (h : s.answers = []) :
    nextAnswer c s = Config.freeAnswer s.callIndex s.history c := by
  simp [nextAnswer, h]

theorem readReply_ok {a : RegAddr} {s : State} {v : Reg16} (h : nextAnswer (.read a) s = .ok v) :
    readReply a s = .ok v := by
  simp [readReply, h]

theorem readReply_held {a : RegAddr} {s : State} (h : nextAnswer (.read a) s = .held) :
    readReply a s = .ok (deviceRead s.device a) := by
  simp [readReply, h]

theorem readReply_err {a : RegAddr} {s : State} (h : nextAnswer (.read a) s = .err) :
    readReply a s = .err := by
  simp [readReply, h]

theorem readReply_silent {a : RegAddr} {s : State} (h : nextAnswer (.read a) s = .silent) :
    readReply a s = .never := by
  simp [readReply, h]

theorem writeReply_ok {a : RegAddr} {v w : Reg16} {s : State}
    (h : nextAnswer (.write a v) s = .ok w) : writeReply a v s = .ok v := by
  simp [writeReply, h]

theorem writeReply_held {a : RegAddr} {v : Reg16} {s : State}
    (h : nextAnswer (.write a v) s = .held) : writeReply a v s = .ok v := by
  simp [writeReply, h]

theorem writeReply_err {a : RegAddr} {v : Reg16} {s : State}
    (h : nextAnswer (.write a v) s = .err) : writeReply a v s = .err := by
  simp [writeReply, h]

theorem writeReply_silent {a : RegAddr} {v : Reg16} {s : State}
    (h : nextAnswer (.write a v) s = .silent) : writeReply a v s = .never := by
  simp [writeReply, h]

/-- A write answered `Ok` stores the value it was given. -/
theorem writeReply_ok_value {a : RegAddr} {v w : Reg16} {s : State} (h : writeReply a v s = .ok w) :
    w = v := by
  unfold writeReply at h
  split at h <;> simp_all

/-! ### Transport calls -/

/-- Everything one read call can do. -/
theorem callRead_cases (a : RegAddr) (s : State) (k : Reg16 → State → State) (e : State → State) :
    (∃ v, readReply a s = .ok v ∧
      callRead a s k e = k v (record (readEvent a (some v)) (startCall s))) ∨
    (readReply a s = .err ∧ callRead a s k e = e (record (readEvent a none) (startCall s))) ∨
    (readReply a s = .never ∧ callRead a s k e = hang (.read a) (startCall s)) := by
  cases h : readReply a s with
  | ok v => exact .inl ⟨v, rfl, by simp [callRead, h]⟩
  | err => exact .inr (.inl ⟨rfl, by simp [callRead, h]⟩)
  | never => exact .inr (.inr ⟨rfl, by simp [callRead, h]⟩)

/-- Everything one write call can do. -/
theorem callWrite_cases (a : RegAddr) (v : Reg16) (s : State) (k e : State → State) :
    (writeReply a v s = .ok v ∧
      callWrite a v s k e = k (land a v (record (writeEvent a v true) (startCall s)))) ∨
    (writeReply a v s = .err ∧ callWrite a v s k e = e (record (writeEvent a v false) (startCall s))) ∨
    (writeReply a v s = .never ∧ callWrite a v s k e = hang (.write a v) (startCall s)) := by
  cases h : writeReply a v s with
  | ok w =>
    obtain rfl := writeReply_ok_value h
    exact .inl ⟨rfl, by simp [callWrite, h]⟩
  | err => exact .inr (.inl ⟨rfl, by simp [callWrite, h]⟩)
  | never => exact .inr (.inr ⟨rfl, by simp [callWrite, h]⟩)

/-- Everything `memRead` can do. -/
theorem memRead_cases (a : RegAddr) (s : State) (k : Reg16 → State → State) :
    (∃ v, readReply a s = .ok v ∧
      memRead a s k = k v (record (readEvent a (some v)) (startCall s))) ∨
    (readReply a s = .err ∧
      memRead a s k = raise .busError (record (readEvent a none) (startCall s))) ∨
    (readReply a s = .never ∧ memRead a s k = hang (.read a) (startCall s)) :=
  callRead_cases a s k (raise .busError)

/-- Everything `memWrite` can do. -/
theorem memWrite_cases (a : RegAddr) (v : Reg16) (s : State) (k : State → State) :
    (writeReply a v s = .ok v ∧
      memWrite a v s k = k (land a v (record (writeEvent a v true) (startCall s)))) ∨
    (writeReply a v s = .err ∧
      memWrite a v s k = raise .busError (record (writeEvent a v false) (startCall s))) ∨
    (writeReply a v s = .never ∧ memWrite a v s k = hang (.write a v) (startCall s)) :=
  callWrite_cases a v s k (raise .busError)

theorem memRead_of_ok {a : RegAddr} {s : State} {v : Reg16} {k : Reg16 → State → State}
    (h : readReply a s = .ok v) :
    memRead a s k = k v (record (readEvent a (some v)) (startCall s)) := by
  simp [memRead, callRead, h]

theorem memRead_of_err {a : RegAddr} {s : State} {k : Reg16 → State → State}
    (h : readReply a s = .err) :
    memRead a s k = raise .busError (record (readEvent a none) (startCall s)) := by
  simp [memRead, callRead, h]

theorem memRead_of_never {a : RegAddr} {s : State} {k : Reg16 → State → State}
    (h : readReply a s = .never) : memRead a s k = hang (.read a) (startCall s) := by
  simp [memRead, callRead, h]

theorem memWrite_of_ok {a : RegAddr} {v w : Reg16} {s : State} {k : State → State}
    (h : writeReply a v s = .ok w) :
    memWrite a v s k = k (land a v (record (writeEvent a v true) (startCall s))) := by
  simp [memWrite, callWrite, h]

theorem memWrite_of_err {a : RegAddr} {v : Reg16} {s : State} {k : State → State}
    (h : writeReply a v s = .err) :
    memWrite a v s k = raise .busError (record (writeEvent a v false) (startCall s)) := by
  simp [memWrite, callWrite, h]

theorem memWrite_of_never {a : RegAddr} {v : Reg16} {s : State} {k : State → State}
    (h : writeReply a v s = .never) : memWrite a v s k = hang (.write a v) (startCall s) := by
  simp [memWrite, callWrite, h]

/-! ### The end of the codec commands -/

/-- Everything `reportField` can be. -/
theorem reportField_cases (f : Field) (v : Reg16) :
    (∃ x, dec f (fieldOf f v) = some x ∧ reportField f v = .finish x) ∨
    (dec f (fieldOf f v) = none ∧ reportField f v = .raise .unknownFieldValue) := by
  unfold reportField
  cases h : dec f (fieldOf f v) with
  | some x => exact .inl ⟨x, rfl, rfl⟩
  | none => exact .inr ⟨rfl, rfl⟩

/-- Everything `afterFieldWrite` can be. -/
theorem afterFieldWrite_cases (f : Field) (c nv : Reg16) :
    (f = .sd ∧ c = 0 ∧ afterFieldWrite f c nv = .settle (zext32 nv)) ∨
    (¬(f = .sd ∧ c = 0) ∧ afterFieldWrite f c nv = .finish (zext32 nv)) := by
  unfold afterFieldWrite
  by_cases h : f = .sd ∧ c = 0
  · exact .inl ⟨h.1, h.2, if_pos h⟩
  · exact .inr ⟨h, if_neg h⟩

/-! ### The tables -/

/-- `enc` answers a code exactly when its table has the row. -/
theorem enc_mem {f : Field} {x : Word32} {c : Reg16} (h : enc f x = some c) :
    (x.toNat, c.toNat) ∈ encTable f := by
  obtain ⟨row, hrow, rfl⟩ := Option.map_eq_some_iff.1 h
  have hx := List.find?_some hrow
  have hm := List.mem_of_find?_eq_some hrow
  have hlt : row.2 < 65536 := by
    have : ∀ r ∈ encTable f, r.2 < 65536 := by cases f <;> decide
    exact this row hm
  rw [← (by simpa using hx : row.1 = x.toNat)]
  simpa [Nat.mod_eq_of_lt hlt] using hm

/-- A row of its table is what `enc` answers. -/
theorem enc_of_mem {f : Field} {x : Word32} {c : Reg16} (h : (x.toNat, c.toNat) ∈ encTable f) :
    enc f x = some c := by
  have key : ∀ n m : Nat, x.toNat = n → c.toNat = m → x = BitVec.ofNat 32 n ∧ c = BitVec.ofNat 16 m := by
    rintro n m rfl rfl
    simp
  cases f <;> simp only [encTable, List.mem_cons, Prod.mk.injEq, List.not_mem_nil, or_false] at h
  all_goals
    first
    | (rcases h with ⟨hx, hc⟩ | ⟨hx, hc⟩ | ⟨hx, hc⟩ | ⟨hx, hc⟩ | ⟨hx, hc⟩ | ⟨hx, hc⟩)
    | (rcases h with ⟨hx, hc⟩ | ⟨hx, hc⟩ | ⟨hx, hc⟩ | ⟨hx, hc⟩)
    | (rcases h with ⟨hx, hc⟩ | ⟨hx, hc⟩ | ⟨hx, hc⟩)
    | (rcases h with ⟨hx, hc⟩ | ⟨hx, hc⟩)
  all_goals
    obtain ⟨rfl, rfl⟩ := key _ _ hx hc
    rfl

/-- `enc` answers none exactly when no row of its table has the value. -/
theorem enc_eq_none {f : Field} {x : Word32} : enc f x = none ↔ ∀ r ∈ encTable f, r.1 ≠ x.toNat := by
  simp [enc]

/-- `dec` answers none exactly when no row of its table has the code. -/
theorem dec_eq_none {f : Field} {c : Reg16} : dec f c = none ↔ ∀ r ∈ encTable f, r.2 ≠ c.toNat := by
  simp [dec]

/-- Bit `i` of a width mask. -/
theorem fieldMask_getLsbD (f : Field) (i : Nat) :
    (fieldMask f).getLsbD i = decide (i < fieldWidth f) := by
  by_cases h : i < 16
  · cases f <;> interval_cases i <;> rfl
  · have hw : fieldWidth f ≤ 4 := by cases f <;> decide
    rw [BitVec.getLsbD_of_ge _ _ (by omega), decide_eq_false (by omega)]

/-- Bit `i` of a positioned mask. -/
theorem placedMask_getLsbD (f : Field) (i : Nat) :
    (placedMask f).getLsbD i = decide (fieldShift f ≤ i ∧ i < fieldShift f + fieldWidth f) := by
  by_cases h : i < 16
  · cases f <;> interval_cases i <;> rfl
  · have hw : fieldShift f + fieldWidth f ≤ 16 := by cases f <;> decide
    rw [BitVec.getLsbD_of_ge _ _ (by omega), decide_eq_false (by omega)]

/-- A code of the table fits its field. -/
theorem encTable_code_le (f : Field) : ∀ r ∈ encTable f, r.2 ≤ (fieldMask f).toNat := by
  cases f <;> decide

/-! ### The device's register file -/

@[simp] theorem deviceRead_write_self {d : DeviceRegs} {a : RegAddr} {v : Reg16}
    (h : regWritable a = true) : deviceRead (deviceWrite d a v) a = v := by
  cases a <;> first | rfl | cases h

theorem deviceRead_write_other {d : DeviceRegs} {a b : RegAddr} {v : Reg16} (h : a ≠ b) :
    deviceRead (deviceWrite d a v) b = deviceRead d b := by
  cases a <;> cases b <;> first | rfl | exact absurd rfl h

/-- A write to a read-only register changes nothing. -/
theorem deviceWrite_readOnly {d : DeviceRegs} {a : RegAddr} {v : Reg16}
    (h : regWritable a = false) : deviceWrite d a v = d := by
  cases a <;> first | rfl | cases h

/-- Every register a threshold select names is writable. -/
@[simp] theorem regWritable_thresholdReg (sel : Threshold) : regWritable (thresholdReg sel) = true := by
  cases sel <;> rfl

/-- The writable fields are those of the writable registers. -/
theorem regWritable_fieldReg (f : Field) : regWritable (fieldReg f) = f.writable := by
  cases f <;> rfl

/-! ### The threshold mapper -/

/-- What being in range means. -/
theorem luxInRange_iff (p : Params) (lux : Int) :
    luxInRange p lux = true ↔ 0 ≤ lux ∧ lux ≤ p.threshMaxLux := by
  simp [luxInRange]

/-- Everything `fitCount` can do. -/
theorem fitCount_cases (o : ThreshOverflow) (q : Nat) :
    (q ≤ 0xFFFF ∧ fitCount o q = .ok (BitVec.ofNat 16 q)) ∨
    (0xFFFF < q ∧ o = .reject ∧ fitCount o q = .error .outOfRange) ∨
    (0xFFFF < q ∧ o = .saturate ∧ fitCount o q = .ok 0xFFFF) := by
  unfold fitCount
  by_cases h : q ≤ 0xFFFF
  · exact .inl ⟨h, if_pos h⟩
  · rw [if_neg h]
    cases o
    · exact .inr (.inl ⟨by omega, rfl, rfl⟩)
    · exact .inr (.inr ⟨by omega, rfl, rfl⟩)

/-! ### Reset -/

theorem deviceAfterReset_landed {s : State} {a : RegAddr} {v : Reg16}
    (h : s.inflight = some (.write a v)) : deviceAfterReset true s = deviceWrite s.device a v := by
  simp [deviceAfterReset, h]

@[simp] theorem deviceAfterReset_not_landed (s : State) : deviceAfterReset false s = s.device := by
  unfold deviceAfterReset
  split <;> simp_all

theorem deviceAfterReset_no_write {s : State} {l : Bool}
    (h : ∀ a v, s.inflight ≠ some (.write a v)) : deviceAfterReset l s = s.device := by
  unfold deviceAfterReset
  split
  · exact absurd ‹_› (h _ _)
  · rfl

/-- Everything a reset can do to the device's registers. -/
theorem deviceAfterReset_cases (l : Bool) (s : State) :
    deviceAfterReset l s = s.device ∨
    ∃ a v, s.inflight = some (.write a v) ∧ l = true ∧
      deviceAfterReset l s = deviceWrite s.device a v := by
  unfold deviceAfterReset
  split
  · exact .inr ⟨_, _, ‹_›, rfl, rfl⟩
  · exact .inl rfl

end Sys2Proof.Machine
end

