-- ==== Sys2Proof/Laws/Program.lean ====
section
/-! SUPPORT. What a program can do: the equations of both ways to run it, and which calls and ends it may have. -/

namespace Sys2Proof.Machine

open Sys2Proof

/-! ### The equations of `run`, `answered`, `after` -/

@[simp] theorem Program.run_finish (r : Word32) (s : State) : (Program.finish r).run s = Machine.finish r s := rfl
@[simp] theorem Program.run_raise (st : Status) (s : State) : (Program.raise st).run s = Machine.raise st s := rfl
@[simp] theorem Program.run_settle (r : Word32) (s : State) : (Program.settle r).run s = enterSettle r s := rfl
@[simp] theorem Program.run_read (a : RegAddr) (k : Reg16 → Program) (s : State) :
    (Program.read a k).run s = memRead a s fun v s₁ => (k v).run s₁ := rfl
@[simp] theorem Program.run_write (a : RegAddr) (v : Reg16) (p : Program) (s : State) :
    (Program.write a v p).run s = memWrite a v s fun s₁ => p.run s₁ := rfl

@[simp] theorem Program.answered_read_ok (a : RegAddr) (k : Reg16 → Program) (v : Reg16) :
    (Program.read a k).answered (some v) = k v := rfl
@[simp] theorem Program.answered_read_err (a : RegAddr) (k : Reg16 → Program) :
    (Program.read a k).answered none = .raise .busError := rfl
@[simp] theorem Program.answered_write_ok (a : RegAddr) (v w : Reg16) (p : Program) :
    (Program.write a v p).answered (some w) = p := rfl
@[simp] theorem Program.answered_write_err (a : RegAddr) (v : Reg16) (p : Program) :
    (Program.write a v p).answered none = .raise .busError := rfl

@[simp] theorem Program.after_nil (p : Program) : p.after [] = p := rfl
theorem Program.after_append (p : Program) (l : List (Option Reg16)) (x : Option Reg16) :
    p.after (l ++ [x]) = (p.after l).answered x := by
  simp [Program.after, List.foldl_append]

/-- No program reads `progress`, and `run` leaves it as it finds it. -/
theorem Program.run_progress (p : Program) (s : State) (l : Option (List (Option Reg16))) :
    p.run { s with progress := l } = { p.run s with progress := l } := by
  induction p generalizing s with
  | finish r => rfl
  | raise st => rfl
  | settle r => rfl
  | read a k ih =>
    simp only [Program.run_read]
    rcases memRead_cases a s (fun v s₁ => (k v).run s₁) with ⟨v, h, e⟩ | ⟨h, e⟩ | ⟨h, e⟩ <;> rw [e]
    · rw [memRead_of_ok (s := { s with progress := l }) h]
      exact ih v (record (readEvent a (some v)) (startCall s))
    · rw [memRead_of_err (s := { s with progress := l }) h]; rfl
    · rw [memRead_of_never (s := { s with progress := l }) h]; rfl
  | write a v p ih =>
    simp only [Program.run_write]
    rcases memWrite_cases a v s (fun s₁ => p.run s₁) with ⟨h, e⟩ | ⟨h, e⟩ | ⟨h, e⟩ <;> rw [e]
    · rw [memWrite_of_ok (s := { s with progress := l }) h]
      exact ih (land a v (record (writeEvent a v true) (startCall s)))
    · rw [memWrite_of_err (s := { s with progress := l }) h]; rfl
    · rw [memWrite_of_never (s := { s with progress := l }) h]; rfl

/-! ### Which calls and ends a program may have -/

/-- The calls of a command still to come: `true` for the write. -/
abbrev Calls := List (Bool × RegAddr)

/-- A program that makes at most the given calls, in their order, ends with an allowed status, and ends with OK
once its write has landed. -/
inductive Within (allowed : List Status) : Calls → Program → Prop where
  | finish (ops : Calls) (r : Word32) (h : .ok ∈ allowed) : Within allowed ops (.finish r)
  | raise (ops : Calls) (st : Status) (h : st ∈ allowed) (hne : st ≠ .ok) : Within allowed ops (.raise st)
  | settle (ops : Calls) (r : Word32) : Within allowed ops (.settle r)
  | read (a : RegAddr) (ops : Calls) (k : Reg16 → Program) (hb : .busError ∈ allowed)
      (h : ∀ v, Within allowed ops (k v)) : Within allowed ((false, a) :: ops) (.read a k)
  | writeFinish (a : RegAddr) (v : Reg16) (r : Word32) (hw : regWritable a = true) (hb : .busError ∈ allowed)
      (h : .ok ∈ allowed) : Within allowed [(true, a)] (.write a v (.finish r))
  | writeSettle (a : RegAddr) (v : Reg16) (r : Word32) (hw : regWritable a = true) (hb : .busError ∈ allowed) :
      Within allowed [(true, a)] (.write a v (.settle r))

/-- What is left of a program is within bounds where the program is. -/
theorem Within.answered {allowed : List Status} {ops : Calls} {p : Program} (h : Within allowed ops p)
    (x : Option Reg16) : ∃ ops', Within allowed ops' (p.answered x) := by
  cases h with
  | finish ops r h => exact ⟨ops, .finish ops r h⟩
  | raise ops st h hne => exact ⟨ops, .raise ops st h hne⟩
  | settle ops r => exact ⟨ops, .settle ops r⟩
  | read a ops k hb h =>
    cases x with
    | some v => exact ⟨ops, h v⟩
    | none => exact ⟨ops, .raise ops _ hb (by decide)⟩
  | writeFinish a v r hw hb h =>
    cases x with
    | some w => exact ⟨[], .finish [] r h⟩
    | none => exact ⟨[], .raise [] _ hb (by decide)⟩
  | writeSettle a v r hw hb =>
    cases x with
    | some w => exact ⟨[], .settle [] r⟩
    | none => exact ⟨[], .raise [] _ hb (by decide)⟩

/-- The same after any answers. -/
theorem Within.after {allowed : List Status} {ops : Calls} {p : Program} (h : Within allowed ops p)
    (l : List (Option Reg16)) : ∃ ops', Within allowed ops' (p.after l) := by
  induction l generalizing p ops with
  | nil => exact ⟨ops, h⟩
  | cons x l ih =>
    obtain ⟨ops', h'⟩ := h.answered x
    exact ih h'

/-! ### One step of a program -/

/-- Everything one step of a program can do. -/
theorem Program.nextStep_cases (p : Program) (l : List (Option Reg16)) (s : State) :
    (∃ r, p = .finish r ∧ p.nextStep l s = Machine.finish r (leaveSteps s)) ∨
    (∃ st, p = .raise st ∧ p.nextStep l s = Machine.raise st (leaveSteps s)) ∨
    (∃ r, p = .settle r ∧ p.nextStep l s = enterSettle r (leaveSteps s)) ∨
    (∃ a k, p = .read a k ∧
      ((∃ v, readReply a s = .ok v ∧
        p.nextStep l s = awaitStep (l ++ [some v]) (record (readEvent a (some v)) (startCall s))) ∨
      (readReply a s = .err ∧
        p.nextStep l s = awaitStep (l ++ [none]) (record (readEvent a none) (startCall s))) ∨
      (readReply a s = .never ∧ p.nextStep l s = hang (.read a) (startCall s)))) ∨
    (∃ a v q, p = .write a v q ∧
      ((writeReply a v s = .ok v ∧
        p.nextStep l s = awaitStep (l ++ [some v]) (land a v (record (writeEvent a v true) (startCall s)))) ∨
      (writeReply a v s = .err ∧
        p.nextStep l s = awaitStep (l ++ [none]) (record (writeEvent a v false) (startCall s))) ∨
      (writeReply a v s = .never ∧ p.nextStep l s = hang (.write a v) (startCall s)))) := by
  cases p with
  | finish r => exact .inl ⟨r, rfl, rfl⟩
  | raise st => exact .inr (.inl ⟨st, rfl, rfl⟩)
  | settle r => exact .inr (.inr (.inl ⟨r, rfl, rfl⟩))
  | read a k => exact .inr (.inr (.inr (.inl ⟨a, k, rfl, callRead_cases a s _ _⟩)))
  | write a v q => exact .inr (.inr (.inr (.inr ⟨a, v, q, rfl, callWrite_cases a v s _ _⟩)))

end Sys2Proof.Machine
end

