-- ==== Sys2Proof/Laws/Step.lean ====
section
/-! SUPPORT. What the step can do: one equation for each kind of input, and one inversion lemma. -/

namespace Sys2Proof.Machine

open Sys2Proof

theorem step_of_nil {s : State} (h : s.inputs = []) : step s = .next (ownStep s) := by
  simp [step, advance, h]

theorem step_of_cons {s : State} {e : Input} {rest : List Input} (h : s.inputs = e :: rest) :
    step s = takeInput e { s with inputs := rest } := by
  simp [step, advance, h]

/-- Everything a step that answers a next state can do. -/
theorem step_cases {s t : State} (h : step s = .next t) :
    (s.inputs = [] ∧ t = ownStep s) ∨
    (∃ e rest, s.inputs = e :: rest ∧ takeInput e { s with inputs := rest } = .next t) := by
  cases hi : s.inputs with
  | nil =>
    rw [step_of_nil hi] at h
    exact .inl ⟨rfl, by injection h with h; exact h.symm⟩
  | cons e rest => exact .inr ⟨e, rest, rfl, by rw [← step_of_cons hi]; exact h⟩

/-- Everything the block's own step can do. -/
theorem ownStep_cases (s : State) :
    ownStep s = s ∨
    (∃ l, s.phase = .exec ∧ s.inflight = none ∧ s.progress = some l ∧
      ownStep s = ((latchedProgram s).after l).nextStep l s) ∨
    (s.phase = .settle ∧ s.settleDone = false ∧ ownStep s = waitSettle s) ∨
    (s.phase = .settle ∧ s.settleDone = true ∧ ownStep s = endSettle s) := by
  unfold ownStep
  cases hp : s.phase with
  | idle => exact .inl rfl
  | exec =>
    cases hi : s.inflight with
    | some c => exact .inl (by simp [execStep, hi])
    | none =>
      cases hl : s.progress with
      | none => exact .inl (by simp [execStep, hi, hl])
      | some l => exact .inr (.inl ⟨l, rfl, rfl, rfl, by simp [execStep, hi, hl]⟩)
  | settle =>
    cases hd : s.settleDone with
    | false => exact .inr (.inr (.inl ⟨rfl, rfl, by simp⟩))
    | true => exact .inr (.inr (.inr ⟨rfl, rfl, by simp⟩))

/-- An idle block waits. -/
theorem ownStep_idle {s : State} (h : s.phase = .idle) : ownStep s = s := by
  simp [ownStep, h]

/-- A stuck block stays stuck. -/
theorem ownStep_stuck {s : State} (hp : s.phase = .exec) (hi : s.inflight.isSome = true) : ownStep s = s := by
  obtain ⟨c, hc⟩ := Option.isSome_iff_exists.1 hi
  simp [ownStep, hp, execStep, hc]

/-- Between two of its steps, a command takes the next one. -/
theorem ownStep_exec {s : State} {l : List (Option Reg16)} (hp : s.phase = .exec) (hi : s.inflight = none)
    (hl : s.progress = some l) : ownStep s = ((latchedProgram s).after l).nextStep l s := by
  simp [ownStep, hp, execStep, hi, hl]

/-- The latched program depends on the words alone. -/
theorem latchedProgram_congr {s t : State} (hc : t.cw = s.cw) (ho : t.opd = s.opd) :
    latchedProgram t = latchedProgram s := by
  rw [latchedProgram, latchedProgram, hc, ho]

/-- The two own steps that end a settle wait. -/
theorem afterSettle_enterSettle (r : Word32) (s : State) :
    ownStep (enterSettle r s) = waitSettle (enterSettle r s) ∧
    ownStep (waitSettle (enterSettle r s)) = endSettle (waitSettle (enterSettle r s)) := by
  constructor <;> simp [ownStep]

/-- A presentation taken step by step, to an idle block. -/
theorem takePresentStepwise_idle {cw opd : Word32} {s : State} (h : s.busy = false) :
    takePresentStepwise cw opd s = awaitStep [] (accept cw opd s) := by
  simp [takePresentStepwise, h]

/-- A presentation taken step by step, to a busy block. -/
theorem takePresentStepwise_busy {cw opd : Word32} {s : State} (h : s.busy = true) :
    takePresentStepwise cw opd s = s := by
  simp [takePresentStepwise, h]

/-- A presentation to an idle block runs its command on the accepted state. -/
theorem takePresent_idle {cw opd : Word32} {s : State} (h : s.busy = false) :
    takePresent cw opd s = runCommand cw opd s := by
  simp [takePresent, h]

/-- A presentation to a busy block has no effect. -/
theorem takePresent_busy {cw opd : Word32} {s : State} (h : s.busy = true) :
    takePresent cw opd s = .next s := by
  simp [takePresent, h]

theorem runCommand_command {cw opd : Word32} {i : Instr} {s : State}
    (h : decode cw opd = .command i) : runCommand cw opd s = exec i (accept cw opd s) := by
  simp [runCommand, h]

theorem runCommand_illegal {cw opd : Word32} {why : Illegal} {s : State}
    (h : decode cw opd = .illegal why) :
    runCommand cw opd s = .next (raise .illegalCommand (accept cw opd s)) := by
  simp [runCommand, h]

/-! ### Runs -/

/-- One more step of a run of any machine. -/
theorem run_succ (M : Host.Core) (n : Nat) (s : M.State) :
    M.run (n + 1) s =
      (match M.step s with
      | .next s' => M.run n s'
      | .fault r => .fault r
      | .refused r => .refused r) := rfl

/-- A run that answers a next state took a step that did, and went on from there. -/
theorem run_succ_cases {n : Nat} {s t : State}
    (h : Host.Core.run Sys2Proof.core (n + 1) s = .next t) :
    ∃ u, step s = .next u ∧ Host.Core.run Sys2Proof.core n u = .next t := by
  have h' := (run_succ Sys2Proof.core n s).symm.trans h
  cases hs : Sys2Proof.core.step s with
  | next u =>
    rw [hs] at h'
    exact ⟨u, hs, h'⟩
  | fault r =>
    rw [hs] at h'
    cases h'
  | refused r =>
    rw [hs] at h'
    cases h'

/-- A run goes on from the next state of its first step. -/
theorem run_succ_of_next {n : Nat} {s u : State} (h : step s = .next u) :
    Host.Core.run Sys2Proof.core (n + 1) s = Host.Core.run Sys2Proof.core n u := by
  have e := run_succ Sys2Proof.core n s
  have h' : Sys2Proof.core.step s = .next u := h
  rw [h'] at e
  exact e

end Sys2Proof.Machine
end

