-- ==== Sys2Proof/Laws/Exec.lean ====
section
/-! SUPPORT. Everything a command can do, said once for all ten: `Runs` lists the ways a command's calls and its
end can go, and `exec_runs` says that `exec` does nothing else. Claims about all commands follow by induction on
`Runs`. -/

namespace Sys2Proof.Machine

open Sys2Proof

/-- An idle block has no settle wait to end. -/
theorem State.afterSettle_idle {s : State} (h : s.phase = .idle) : s.afterSettle = s := by
  rw [State.afterSettle, ownStep_idle h, ownStep_idle h]

/-- The calls a command may make, in order (20_memory.md R69). -/
def callsOf (i : Instr) : Calls :=
  ((readsOf i).map fun a => (false, a)) ++ ((writeOf i).toList.map fun a => (true, a))

theorem callTemplate_eq (i : Instr) : callTemplate i = (callsOf i).map fun c => (c.1, regByte c.2) := by
  simp [callTemplate, callsOf, List.map_map, Function.comp_def]

/-- How a command with the given calls still to come can take `s` to its end, raising only allowed statuses. -/
inductive Runs (allowed : List Status) : Calls → State → State → Prop where
  /-- It completes with OK before any write. -/
  | finish (ops : Calls) (r : Word32) (s : State) (h : .ok ∈ allowed) : Runs allowed ops s (finish r s)
  /-- A check fails. -/
  | raise (ops : Calls) (st : Status) (s : State) (h : st ∈ allowed) (hne : st ≠ .ok) :
      Runs allowed ops s (raise st s)
  /-- The settle wait begins. -/
  | settle (ops : Calls) (r : Word32) (s : State) : Runs allowed ops s (enterSettle r s)
  /-- A read brings a value, and the command goes on. -/
  | readOk (a : RegAddr) (v : Reg16) (ops : Calls) (s t : State)
      (h : Runs allowed ops (record (readEvent a (some v)) (startCall s)) t) :
      Runs allowed ((false, a) :: ops) s t
  /-- A read fails. -/
  | readErr (a : RegAddr) (ops : Calls) (s : State) (h : .busError ∈ allowed) :
      Runs allowed ((false, a) :: ops) s
        (Machine.raise .busError (record (readEvent a none) (startCall s)))
  /-- A read is never answered. -/
  | readNever (a : RegAddr) (ops : Calls) (s : State) :
      Runs allowed ((false, a) :: ops) s (hang (.read a) (startCall s))
  /-- The write lands and the command completes. -/
  | writeOk (a : RegAddr) (v : Reg16) (r : Word32) (s : State) (h : .ok ∈ allowed)
      (hw : regWritable a = true) :
      Runs allowed [(true, a)] s
        (Machine.finish r (land a v (record (writeEvent a v true) (startCall s))))
  /-- The write lands and the settle wait begins. -/
  | writeSettle (a : RegAddr) (v : Reg16) (r : Word32) (s : State) (hw : regWritable a = true) :
      Runs allowed [(true, a)] s
        (enterSettle r (land a v (record (writeEvent a v true) (startCall s))))
  /-- The write fails. -/
  | writeErr (a : RegAddr) (v : Reg16) (s : State) (h : .busError ∈ allowed)
      (hw : regWritable a = true) :
      Runs allowed [(true, a)] s
        (Machine.raise .busError (record (writeEvent a v false) (startCall s)))
  /-- The write is never answered. -/
  | writeNever (a : RegAddr) (v : Reg16) (s : State) (hw : regWritable a = true) :
      Runs allowed [(true, a)] s (hang (.write a v) (startCall s))

/-- A program within bounds runs as `Runs` lists. -/
theorem Within.runs {allowed : List Status} {ops : Calls} {p : Program} (h : Within allowed ops p) (s : State) :
    Runs allowed ops s (p.run s) := by
  induction h generalizing s with
  | finish ops r h => exact .finish ops r s h
  | raise ops st h hne => exact .raise ops st s h hne
  | settle ops r => exact .settle ops r s
  | read a ops k hb _ ih =>
    rcases memRead_cases a s (fun v s₁ => (k v).run s₁) with ⟨v, -, e⟩ | ⟨-, e⟩ | ⟨-, e⟩ <;>
      rw [Program.run_read, e]
    · exact .readOk a v ops s _ (ih v _)
    · exact .readErr a ops s hb
    · exact .readNever a ops s
  | writeFinish a v r hw hb h =>
    rcases memWrite_cases a v s (fun s₁ => (Program.finish r).run s₁) with ⟨-, e⟩ | ⟨-, e⟩ | ⟨-, e⟩ <;>
      rw [Program.run_write, e]
    · exact .writeOk a v r s h hw
    · exact .writeErr a v s hb hw
    · exact .writeNever a v s hw
  | writeSettle a v r hw hb =>
    rcases memWrite_cases a v s (fun s₁ => (Program.settle r).run s₁) with ⟨-, e⟩ | ⟨-, e⟩ | ⟨-, e⟩ <;>
      rw [Program.run_write, e]
    · exact .writeSettle a v r s hw
    · exact .writeErr a v s hb hw
    · exact .writeNever a v s hw

/-- What the mapping answers under a range check that holds. -/
theorem rawOf_error {p : Params} {lux : Int} {g : Gain} {t : BitVec 4} {st : Status}
    (h : rawOf p lux g t = .error st) : st = .outOfRange ∨ st = .unsupportedConfiguration := by
  unfold rawOf at h
  split at h
  · split at h
    · rcases fitCount_cases p.threshOverflow (rawCount p lux g _) with ⟨-, e⟩ | ⟨-, -, e⟩ | ⟨-, -, e⟩ <;>
        rw [e] at h <;> cases h
      exact .inl rfl
    · cases h
      exact .inr rfl
  · cases h
    exact .inl rfl

/-- What the lux function answers when it fails. -/
theorem luxOf_error {p : Params} {raw : Reg16} {g : Gain} {t : BitVec 4} {st : Status}
    (h : luxOf p raw g t = .error st) : st = .unsupportedConfiguration := by
  unfold luxOf at h
  split at h <;> cases h
  rfl

/-- `exec` runs the command's program. -/
theorem exec_eq_run (i : Instr) (s : State) : exec i s = .next ((programOf i).run s) := by
  cases i <;> rfl

/-- The end of DECODE and GET_FIELD. -/
theorem reportField_within {allowed : List Status} (f : Field) (v : Reg16) (ops : Calls)
    (hok : .ok ∈ allowed) (hu : .unknownFieldValue ∈ allowed) : Within allowed ops (reportField f v) := by
  rcases reportField_cases f v with ⟨x, -, e⟩ | ⟨-, e⟩ <;> rw [e]
  · exact .finish ops x hok
  · exact .raise ops _ hu (by decide)

/-- Every command's program makes a prefix of its calls and raises only its own statuses. The statuses listed may
be more than the command's. -/
theorem programOf_within (i : Instr) (allowed : List Status)
    (hsub : ∀ st ∈ allowedStatuses i, st ∈ allowed)
    (hill : i.wellFormed = false → .illegalCommand ∈ allowed) : Within allowed (callsOf i) (programOf i) := by
  cases i with
  | encodeField f x =>
    show Within allowed _ (encodeProgram f x)
    unfold encodeProgram
    split
    · exact .finish _ _ (hsub _ (by simp [allowedStatuses]))
    · exact .raise _ _ (hsub _ (by simp [allowedStatuses])) (by decide)
  | decodeField f v =>
    exact reportField_within f v _ (hsub _ (by simp [allowedStatuses])) (hsub _ (by simp [allowedStatuses]))
  | applyField f v b =>
    show Within allowed _ (applyProgram f v b)
    unfold applyProgram
    split
    · exact .finish _ _ (hsub _ (by simp [allowedStatuses]))
    · exact .raise _ _ (hsub _ (by simp [allowedStatuses])) (by decide)
  | rawToLux g t raw =>
    show Within allowed _ (rawToLuxProgram g t raw)
    unfold rawToLuxProgram
    split
    · exact .finish _ _ (hsub _ (by simp [allowedStatuses]))
    · rename_i st he
      obtain rfl := luxOf_error he
      exact .raise _ _ (hsub _ (by simp [allowedStatuses])) (by decide)
  | luxToRaw g t lux =>
    show Within allowed _ (luxToRawProgram g t lux)
    unfold luxToRawProgram
    split
    · exact .finish _ _ (hsub _ (by simp [allowedStatuses]))
    · rename_i st he
      rcases rawOf_error he with rfl | rfl <;>
        exact .raise _ _ (hsub _ (by simp [allowedStatuses])) (by decide)
  | setField f x =>
    show Within allowed _ (setFieldProgram f x)
    unfold setFieldProgram
    by_cases hw : regWritable (fieldReg f) = true
    · rw [if_pos hw]
      split
      · rename_i c _
        refine .read _ _ _ (hsub _ (by simp [allowedStatuses])) fun v => ?_
        rcases afterFieldWrite_cases f c (put f v c) with ⟨-, -, e⟩ | ⟨-, e⟩ <;> rw [e]
        · exact .writeSettle _ _ _ hw (hsub _ (by simp [allowedStatuses]))
        · exact .writeFinish _ _ _ hw (hsub _ (by simp [allowedStatuses])) (hsub _ (by simp [allowedStatuses]))
      · exact .raise _ _ (hsub _ (by simp [allowedStatuses])) (by decide)
    · rw [if_neg hw]
      refine .raise _ _ (hill ?_) (by decide)
      rw [regWritable_fieldReg] at hw
      simpa [Instr.wellFormed] using hw
  | getField f =>
    exact .read _ _ _ (hsub _ (by simp [allowedStatuses])) fun v =>
      reportField_within f v _ (hsub _ (by simp [allowedStatuses])) (hsub _ (by simp [allowedStatuses]))
  | readLux =>
    refine .read _ _ _ (hsub _ (by simp [allowedStatuses])) fun v => ?_
    split
    · exact .read _ _ _ (hsub _ (by simp [allowedStatuses])) fun a =>
        .finish _ _ (hsub _ (by simp [allowedStatuses]))
    · exact .raise _ _ (hsub _ (by simp [allowedStatuses])) (by decide)
  | readRaw a =>
    exact .read _ _ _ (hsub _ (by simp [allowedStatuses])) fun v =>
      .finish _ _ (hsub _ (by simp [allowedStatuses]))
  | setThresh sel lux =>
    show Within allowed _ (setThreshProgram sel lux)
    unfold setThreshProgram
    split
    · refine .read _ _ _ (hsub _ (by simp [allowedStatuses])) fun v => ?_
      split
      · exact .writeFinish _ _ _ (by simp) (hsub _ (by simp [allowedStatuses]))
          (hsub _ (by simp [allowedStatuses]))
      · rename_i st he
        rcases rawOf_error he with rfl | rfl <;>
          exact .raise _ _ (hsub _ (by simp [allowedStatuses])) (by decide)
    · exact .raise _ _ (hsub _ (by simp [allowedStatuses])) (by decide)

/-- `exec` does nothing but what `Runs` lists: every command answers a next state, makes a prefix of its calls,
and raises only its own statuses. -/
theorem exec_runs (i : Instr) (s : State) (allowed : List Status)
    (hsub : ∀ st ∈ allowedStatuses i, st ∈ allowed)
    (hill : i.wellFormed = false → .illegalCommand ∈ allowed) :
    ∃ t, exec i s = .next t ∧ Runs allowed (callsOf i) s t :=
  ⟨_, exec_eq_run i s, (programOf_within i allowed hsub hill).runs s⟩

/-- The program of the latched words is within bounds, whatever the words. -/
theorem latchedProgram_within (s : State) :
    ∃ allowed ops, Within allowed ops (latchedProgram s) := by
  unfold latchedProgram
  split
  · rename_i i _
    exact ⟨_, _, programOf_within i (.illegalCommand :: allowedStatuses i)
      (fun _ hs => List.mem_cons_of_mem _ hs) (fun _ => List.mem_cons_self)⟩
  · exact ⟨[.illegalCommand], [], .raise _ _ (by simp) (by decide)⟩

/-- `exec_runs` read backwards, for any next state of `exec`. -/
theorem runs_of_exec {i : Instr} {s t : State} (h : exec i s = .next t) :
    Runs (.illegalCommand :: allowedStatuses i) (callsOf i) s t := by
  obtain ⟨u, hu, hr⟩ := exec_runs i s (.illegalCommand :: allowedStatuses i)
    (fun _ hs => List.mem_cons_of_mem _ hs) (fun _ => List.mem_cons_self)
  rw [h] at hu
  injection hu with hu
  rwa [hu]

/-- The same for a well-formed command, with its own statuses alone. -/
theorem runs_of_exec_wellFormed {i : Instr} {s t : State} (hw : i.wellFormed = true)
    (h : exec i s = .next t) : Runs (allowedStatuses i) (callsOf i) s t := by
  obtain ⟨u, hu, hr⟩ := exec_runs i s (allowedStatuses i) (fun _ hs => hs) (fun hf => by simp [hw] at hf)
  rw [h] at hu
  injection hu with hu
  rwa [hu]

/-! ### The arms of `exec` in terms of the shared operations -/

theorem exec_encodeField (f : Field) (x : Word32) (s : State) :
    exec (.encodeField f x) s =
      .next (match enc f x with
        | some c => finish (zext32 c) s
        | none => raise .invalidSetting s) := by
  show Host.Outcome.next ((encodeProgram f x).run s) = _
  unfold encodeProgram
  cases enc f x <;> rfl

theorem exec_decodeField (f : Field) (v : Reg16) (s : State) :
    exec (.decodeField f v) s = .next ((reportField f v).run s) := rfl

theorem exec_applyField (f : Field) (v b : Reg16) (s : State) :
    exec (.applyField f v b) s =
      .next (if b ≤ fieldMask f then finish (zext32 (put f v b)) s else raise .invalidSetting s) := by
  show Host.Outcome.next ((applyProgram f v b).run s) = _
  unfold applyProgram
  split <;> rfl

theorem exec_rawToLux (g : Gain) (t : BitVec 4) (raw : Reg16) (s : State) :
    exec (.rawToLux g t raw) s =
      .next (match luxOf hardware raw g t with
        | .ok lux => finish (BitVec.ofNat 32 lux) s
        | .error st => raise st s) := by
  show Host.Outcome.next ((rawToLuxProgram g t raw).run s) = _
  unfold rawToLuxProgram
  cases luxOf hardware raw g t <;> rfl

theorem exec_luxToRaw (g : Gain) (t : BitVec 4) (lux : Word32) (s : State) :
    exec (.luxToRaw g t lux) s =
      .next (match rawOf hardware (signed32 lux) g t with
        | .ok q => finish (zext32 q) s
        | .error st => raise st s) := by
  show Host.Outcome.next ((luxToRawProgram g t lux).run s) = _
  unfold luxToRawProgram
  cases rawOf hardware (signed32 lux) g t <;> rfl

theorem exec_setField {f : Field} {x : Word32} {c : Reg16} (s : State) (hw : f.writable = true)
    (hc : enc f x = some c) :
    exec (.setField f x) s =
      .next (memRead (fieldReg f) s fun v s₁ =>
        memWrite (fieldReg f) (put f v c) s₁ fun s₂ => (afterFieldWrite f c (put f v c)).run s₂) := by
  have hw' : regWritable (fieldReg f) = true := (regWritable_fieldReg f).trans hw
  show Host.Outcome.next ((setFieldProgram f x).run s) = _
  rw [setFieldProgram, if_pos hw', hc]
  rfl

theorem exec_setField_undocumented {f : Field} {x : Word32} (s : State) (hw : f.writable = true)
    (hc : enc f x = none) : exec (.setField f x) s = .next (raise .invalidSetting s) := by
  have hw' : regWritable (fieldReg f) = true := (regWritable_fieldReg f).trans hw
  show Host.Outcome.next ((setFieldProgram f x).run s) = _
  rw [setFieldProgram, if_pos hw', hc]
  rfl

theorem exec_getField (f : Field) (s : State) :
    exec (.getField f) s = .next (memRead (fieldReg f) s fun v s₁ => (reportField f v).run s₁) := rfl

/-- READ_LUX after the read of SETTING. -/
theorem exec_readLux (s : State) :
    exec .readLux s = .next (memRead .setting s fun v s₁ =>
      match intTimeOf (settingItCode v) with
      | some it => memRead .ambientData s₁ fun a s₂ =>
          finish (BitVec.ofNat 32 (luxValue hardware a (settingGain v) it)) s₂
      | none => raise .unsupportedConfiguration s₁) := by
  have e : ∀ (v : Reg16) (s₁ : State),
      Program.run (match intTimeOf (settingItCode v) with
        | some it => .read .ambientData fun a =>
            .finish (BitVec.ofNat 32 (luxValue hardware a (settingGain v) it))
        | none => .raise .unsupportedConfiguration) s₁ =
      (match intTimeOf (settingItCode v) with
      | some it => memRead .ambientData s₁ fun a s₂ =>
          finish (BitVec.ofNat 32 (luxValue hardware a (settingGain v) it)) s₂
      | none => raise .unsupportedConfiguration s₁) := by
    intro v s₁
    cases intTimeOf (settingItCode v) <;> rfl
  show Host.Outcome.next (readLuxProgram.run s) = _
  rw [readLuxProgram, Program.run_read]
  exact congrArg (fun k => Host.Outcome.next (memRead .setting s k))
    (funext fun v => funext fun s₁ => e v s₁)

theorem exec_readRaw (a : RegAddr) (s : State) :
    exec (.readRaw a) s = .next (memRead a s fun v s₁ => finish (zext32 v) s₁) := rfl

/-- SET_THRESH of an in-range lux. -/
theorem exec_setThresh {lux : Word32} (sel : Threshold) (s : State) (h0 : 0 ≤ lux.toInt)
    (h1 : lux.toInt ≤ 120000) :
    exec (.setThresh sel lux) s = .next (memRead .setting s fun v s₁ =>
      match rawOf hardware (signed32 lux) (settingGain v) (settingItCode v) with
      | .ok q => memWrite (thresholdReg sel) q s₁ fun s₂ => finish (zext32 q) s₂
      | .error st => raise st s₁) := by
  have hr : luxInRange hardware (signed32 lux) = true :=
    (luxInRange_iff _ _).2 ⟨h0, by simpa [signed32] using h1⟩
  have e : ∀ (v : Reg16) (s₁ : State),
      Program.run (match rawOf hardware (signed32 lux) (settingGain v) (settingItCode v) with
        | .ok q => .write (thresholdReg sel) q (.finish (zext32 q))
        | .error st => .raise st) s₁ =
      (match rawOf hardware (signed32 lux) (settingGain v) (settingItCode v) with
      | .ok q => memWrite (thresholdReg sel) q s₁ fun s₂ => finish (zext32 q) s₂
      | .error st => raise st s₁) := by
    intro v s₁
    cases rawOf hardware (signed32 lux) (settingGain v) (settingItCode v) <;> rfl
  show Host.Outcome.next ((setThreshProgram sel lux).run s) = _
  rw [setThreshProgram, if_pos hr, Program.run_read]
  exact congrArg (fun k => Host.Outcome.next (memRead .setting s k))
    (funext fun v => funext fun s₁ => e v s₁)

theorem exec_setThresh_outOfRange {lux : Word32} (sel : Threshold) (s : State)
    (h : lux.toInt < 0 ∨ 120000 < lux.toInt) :
    exec (.setThresh sel lux) s = .next (raise .outOfRange s) := by
  have hr : ¬luxInRange hardware (signed32 lux) = true := by
    rw [luxInRange_iff]
    simp only [hardware_threshMaxLux, signed32]
    omega
  show Host.Outcome.next ((setThreshProgram sel lux).run s) = _
  rw [setThreshProgram, if_neg hr]
  rfl

end Sys2Proof.Machine
end

