-- ==== Sys2Proof/Tests/Slice0.lean ====
section
/-! SUPPORT. Tests against the spec's words and vectors (30_encoding.md R94, R95; 95_test_vectors.md), and for
every statement with hypotheses a witness that meets them. -/

namespace Sys2Proof.Tests

open Sys2Proof Sys2Proof.Machine

/-! ### Helpers -/

/-- A device that holds a SETTING value, and a value in each other register that tells it from the others. -/
def deviceAt (setting : Reg16) : DeviceRegs where
  setting := setting
  highThresh := 0x21E8
  lowThresh := 0x00AD
  powerSave := 0x0005
  ambientData := 0xEA60
  whiteData := 0x1234
  intStatus := 0x4000

/-- An idle block beside such a device, with the next answers of the transport. -/
def board (setting : Reg16) (answers : List Answer) : State :=
  { State.reset with device := deviceAt setting, answers := answers }

/-- The same with one command presented. -/
def presented (cw opd : Word32) (setting : Reg16) (answers : List Answer) : State :=
  { board setting answers with inputs := [.present cw opd] }

/-- The status and result of a completed step. -/
def response : Host.Outcome State Fault Refusal → Option (Nat × Nat)
  | .next t => if t.rspValid && !t.busy then some (t.rspStatus.toNat, t.rspResult.toNat) else none
  | .fault _ => none
  | .refused _ => none

/-- The device after a step. -/
def deviceAfter : Host.Outcome State Fault Refusal → Option DeviceRegs
  | .next t => some t.device
  | .fault _ => none
  | .refused _ => none

/-- The kinds and register addresses of all calls made. -/
def callsAfter : Host.Outcome State Fault Refusal → Option (List (Bool × RegByte))
  | .next t => some (t.history.filterMap callShape)
  | .fault _ => none
  | .refused _ => none

/-! ### WellFormed: the one check, and the terms beside it -/

theorem test_wf_set_read_only_refused : (Instr.setField .intStatus 0).wellFormed = false := by decide
theorem test_wf_set_writable : (Instr.setField .psmMode 4).wellFormed = true := by decide
theorem test_wf_get_read_only : (Instr.getField .intStatus).wellFormed = true := by decide

/-! ### Decoding: words of 95_test_vectors.md L1 to L3 and 30_encoding.md R95 -/

theorem test_decode_encode : decode 0x00000070 0x00000002 = .command (.encodeField .intStatus 2) := by decide
theorem test_decode_decode : decode 0x00000061 0x0000FFF9 = .command (.decodeField .psmMode 0xFFF9) := by decide
theorem test_decode_apply : decode 0x00000002 0x0001A5A5 = .command (.applyField .gain 0xA5A5 1) := by decide
theorem test_decode_raw2lux : decode 0x00003103 0x0000EA60 = .command (.rawToLux .g2 12 60000) := by decide
theorem test_decode_lux2raw : decode 0x00000E04 0x00000064 = .command (.luxToRaw .g1_8 3 100) := by decide
theorem test_decode_setf : decode 0x00000035 0x00000001 = .command (.setField .intEn 1) := by decide
theorem test_decode_getf : decode 0x00000016 0x00000000 = .command (.getField .it) := by decide
theorem test_decode_readlux : decode 0x00000007 0x00000000 = .command .readLux := by decide
theorem test_decode_readraw : decode 0x00000048 0x00000000 = .command (.readRaw .ambientData) := by decide
theorem test_decode_setth : decode 0x00000009 0x0001D4C1 = .command (.setThresh .high 120001) := by decide
theorem test_table_word : decodeTableWord 64 0x0000EA6000003103 = some (.rawToLux .g2 12 60000) := by decide
theorem test_table_word_short : decodeTableWord 32 0xFFFF00000048 = some (.readRaw .ambientData) := by decide

/-! Illegal pairs (30_encoding.md R83, R85 to R89) -/

theorem test_illegal_opcode : decode 0x0000000A 0 = .illegal .opcode := by decide
theorem test_illegal_reserved : decode 0x00004007 0 = .illegal .reservedBits := by decide
theorem test_illegal_pair : decode 0x00000107 0 = .illegal .pairBits := by decide
theorem test_illegal_select : decode 0x00000029 0 = .illegal .select := by decide
theorem test_illegal_operand : decode 0x00000007 1 = .illegal .operandBits := by decide
theorem test_illegal_completes :
    response (step (presented 0x0000000A 0 0x0800 [])) = some (6, 0) ∧
    callsAfter (step (presented 0x0000000A 0 0x0800 [])) = some [] := by decide

/-! ### One step of each command: 95_test_vectors.md L1 and L2, by their rows -/

theorem test_encode_it : response (step (presented 0x10 0x19 0 [])) = some (0, 12) := by decide
theorem test_encode_near : response (step (presented 0x10 0x63 0 [])) = some (1, 0) := by decide
theorem test_decode_gain : response (step (presented 0x01 0x1800 0 [])) = some (0, 2) := by decide
theorem test_decode_reserved : response (step (presented 0x11 0x0100 0 [])) = some (2, 0) := by decide
theorem test_apply_it : response (step (presented 0x12 0xFFFF 0 [])) = some (0, 0xFC3F) := by decide
theorem test_apply_wide : response (step (presented 0x02 0x00040000 0 [])) = some (1, 0) := by decide
theorem test_raw2lux : response (step (presented 0xE03 0x64 0 [])) = some (0, 5) := by decide
theorem test_raw2lux_compensated : response (step (presented 0x3103 0xEA60 0 [])) = some (0, 9092) := by decide
theorem test_lux2raw : response (step (presented 0xE04 0x64 0 [])) = some (0, 1736) := by decide
theorem test_lux2raw_range_first : response (step (presented 0x1004 0xFFFFFFFF 0 [])) = some (4, 0) := by decide

/-- L1.11: the write lands with every other bit kept. -/
theorem test_setf_gain :
    response (step (presented 0x05 0x02 0x0001 [.ok 0x0001, .held])) = some (0, 0x1801) ∧
    deviceAfter (step (presented 0x05 0x02 0x0001 [.ok 0x0001, .held])) = some (deviceAt 0x1801) ∧
    callsAfter (step (presented 0x05 0x02 0x0001 [.ok 0x0001, .held])) = some [(false, 0), (true, 0)] := by
  decide

/-- L3 P4 step 5: a failed write leaves SETTING. -/
theorem test_setf_write_error :
    response (step (presented 0x05 0x02 0x0800 [.held, .err])) = some (5, 0) ∧
    deviceAfter (step (presented 0x05 0x02 0x0800 [.held, .err])) = some (deviceAt 0x0800) := by decide

theorem test_getf_it : response (step (presented 0x16 0 0x0300 [.held])) = some (0, 25) := by decide
theorem test_getf_reserved : response (step (presented 0x76 0 0 [.ok 0xC000])) = some (2, 0) := by decide
theorem test_readlux : response (step (presented 0x07 0 0x0B00 [.held, .held])) = some (0, 9092) := by decide

/-- L2.5: with a reserved code AMBIENT_DATA is not read. -/
theorem test_readlux_reserved :
    response (step (presented 0x07 0 0x0100 [.held, .held])) = some (3, 0) ∧
    callsAfter (step (presented 0x07 0 0x0100 [.held, .held])) = some [(false, 0)] := by decide

theorem test_readraw_white : response (step (presented 0x58 0 0 [.held])) = some (0, 0x1234) := by decide
theorem test_readraw_error : response (step (presented 0x58 0 0 [.err])) = some (5, 0) := by decide

theorem test_setth_low :
    response (step (presented 0x19 0x0A 0x0000 [.held, .held])) = some (0, 0xAD) ∧
    callsAfter (step (presented 0x19 0x0A 0x0000 [.held, .held])) = some [(false, 0), (true, 2)] := by decide

theorem test_setth_overflow :
    response (step (presented 0x09 0x1D4C0 0x0000 [.held, .held])) = some (4, 0) ∧
    callsAfter (step (presented 0x09 0x1D4C0 0x0000 [.held, .held])) = some [(false, 0)] := by decide

/-- L1.12: the bytes of a write, and of a read. -/
theorem test_bus_bytes : writeBytes 0x01 0x21E8 = [0x01, 0xE8, 0x21] ∧ readValue 0x60 0xEA = 0xEA60 := by decide

/-- `withFetchWord` places a command that the very next step runs. -/
theorem test_fetch_word : response (step (State.reset.withFetchWord 64 0x6400000E03)) = some (0, 5) := by decide

/-! ### States for the witnesses -/

/-- A block stuck on the write of SET_FIELD gain (95_test_vectors.md L2.6). -/
def stuckOnWrite : State :=
  { board 0x0001 [] with inflight := some (.write .setting 0x1801), phase := .exec, busy := true }

/-- A block in the settle wait. -/
def settling : State := { board 0x0000 [] with phase := .settle, busy := true }

/-- A READ_LUX taken step by step, between its two calls. -/
def betweenCalls : State :=
  { board 0x0800 [.held] with
    cw := 0x07, phase := .exec, busy := true, progress := some [some 0x0800]
    history := [readEvent .setting (some 0x0800)] }

/-! ### Witnesses: hypotheses that can be met, in the order of the statements -/

theorem witness_BlockResetSetsEveryBlockRegister :
    { settling with inputs := [.reset true] }.inputs = [.reset true] ∧
    ([] : List Input) = [] ∧
    ∀ a v, { settling with inputs := [.reset true] }.inflight ≠ some (.write a v) := by
  refine ⟨rfl, rfl, fun a v h => ?_⟩; cases h

theorem witness_ResetWhileBusyAdmitsBothOutcomes :
    ({ settling with inputs := [.reset false] }.inputs = [.reset false] ∧
      { settling with inputs := [.reset false] }.busy = true) ∧
    { betweenCalls with inputs := [.reset false] }.busy = true ∧
    ({ stuckOnWrite with inputs := [.reset true] }.inputs = [.reset true] ∧
      { stuckOnWrite with inputs := [.reset true] }.inflight = some (.write .setting 0x1801)) ∧
    (stuckOnWrite.phase = .exec ∧ stuckOnWrite.busy = true ∧ stuckOnWrite.inflight.isSome = true ∧
      ∀ landed rest, stuckOnWrite.inputs ≠ .reset landed :: rest) := by
  refine ⟨⟨rfl, rfl⟩, rfl, ⟨rfl, rfl⟩, rfl, rfl, rfl, fun _ _ h => ?_⟩; cases h

theorem witness_StepRunsPresentedCommand :
    ((presented 0x07 0 0x0800 []).inputs = [.present 0x07 0] ∧ (presented 0x07 0 0x0800 []).busy = false ∧
      decode 0x07 0 = .command .readLux) ∧
    ({ board 0x0800 [] with inputs := [.presentStepwise 0x07 0] }.inputs = [.presentStepwise 0x07 0] ∧
      { board 0x0800 [] with inputs := [.presentStepwise 0x07 0] }.busy = false) ∧
    ({ settling with inputs := [.present 0x07 0] }.inputs = [.present 0x07 0] ∧
      { settling with inputs := [.present 0x07 0] }.busy = true) ∧
    ({ betweenCalls with inputs := [.presentStepwise 0x07 0] }.inputs = [.presentStepwise 0x07 0] ∧
      { betweenCalls with inputs := [.presentStepwise 0x07 0] }.busy = true) :=
  ⟨⟨rfl, rfl, by decide⟩, ⟨rfl, rfl⟩, ⟨rfl, rfl⟩, rfl, rfl⟩

theorem witness_IllegalCommandHasNoOtherEffect :
    (presented 0x75 0 0x0800 []).inputs = [.present 0x75 0] ∧ (presented 0x75 0 0x0800 []).busy = false ∧
    decode 0x75 0 = .illegal .select := ⟨rfl, rfl, by decide⟩

/-- Each listed case at its boundary, and legal pairs just inside. -/
theorem witness_IllegalExactlyInTheListedCases :
    (∃ why, decode 0x0A 0 = .illegal why) ∧ (∃ why, decode 0x4000 8 = .illegal why) ∧
    (∃ why, decode 0x100 8 = .illegal why) ∧ (∃ why, decode 0x80 8 = .illegal why) ∧
    (∃ why, decode 0x78 0 = .illegal why) ∧ (∃ why, decode 0x29 0 = .illegal why) ∧
    (∃ why, decode 0x17 0 = .illegal why) ∧ (∃ why, decode 0x08 1 = .illegal why) ∧
    (∃ why, decode 0x01 0x10000 = .illegal why) ∧
    decode 0x09 0 = .command (.setThresh .high 0) ∧ decode 0x3F03 0xFFFF = .command (.rawToLux .g1_4 15 0xFFFF) ∧
    decode 0x68 0 = .command (.readRaw .intStatus) :=
  ⟨⟨_, rfl⟩, ⟨_, rfl⟩, ⟨_, rfl⟩, ⟨_, rfl⟩, ⟨_, rfl⟩, ⟨_, rfl⟩, ⟨_, rfl⟩, ⟨_, rfl⟩, ⟨_, rfl⟩, by decide, by decide,
    by decide⟩

theorem witness_DecodeOfEncodeIsIdentity :
    (Instr.setField .psmMode 0xFFFFFFFF).wellFormed = true ∧ (Instr.rawToLux .g1_4 15 0xFFFF).wellFormed = true := by
  decide

theorem witness_LegalPairIsItsCommandsEncoding :
    decode 0x3F04 0xFFFFFFFF = .command (.luxToRaw .g1_4 15 0xFFFFFFFF) := by decide

theorem witness_FieldsOfOneRegisterNeverOverlap :
    Field.gain ≠ .it ∧ fieldReg .gain = fieldReg .it ∧ Field.psmEn ≠ .psmMode ∧
    fieldReg .psmEn = fieldReg .psmMode := by decide

/-- Both sides of the reserved codes: the first and last reserved, and legal codes beside them. -/
theorem witness_DecodeTableInvertsEncodeTable :
    (4 : Reg16) ≤ fieldMask .it ∧ dec .it 4 = none ∧ (15 : Reg16) ≤ fieldMask .it ∧ dec .it 15 = none ∧
    (3 : Reg16) ≤ fieldMask .intStatus ∧ dec .intStatus 3 = none ∧ (12 : Reg16) ≤ fieldMask .it ∧
    dec .it 12 = some 25 ∧ (3 : Reg16) ≤ fieldMask .gain ∧ dec .gain 3 = some 2 := by decide

theorem witness_PutChangesOnlyItsField :
    (15 : Reg16) ≤ fieldMask .it ∧ Field.gain ≠ .it ∧ fieldReg .gain = fieldReg .it := by decide

theorem witness_EncodeCommandResult :
    enc .it 25 = some 12 ∧ enc .it 0 = none ∧ enc .gain 1 = some 2 ∧ enc .psmMode 5 = none := by decide

theorem witness_DecodeCommandResult :
    dec .gain (((0xFFFF : Reg16) >>> fieldShift .gain) &&& fieldMask .gain) = some 2 ∧
    dec .intStatus (((0xFFFF : Reg16) >>> fieldShift .intStatus) &&& fieldMask .intStatus) = none := by decide

theorem witness_ApplyCommandResult :
    (15 : Reg16) ≤ fieldMask .it ∧ fieldMask .it < (16 : Reg16) ∧ (1 : Reg16) ≤ fieldMask .sd ∧
    fieldMask .sd < (2 : Reg16) := by decide

theorem witness_CodecRoundTrip :
    enc .gain 1 = some 2 ∧ dec .gain 2 = some 1 ∧ enc .it 25 ≠ none := by decide

theorem witness_SetFieldCompletes :
    Field.gain.writable = true ∧ enc .gain 2 = some 3 ∧ ¬(Field.gain = .sd ∧ (3 : Reg16) = 0) ∧
    (board 0x0001 [.held, .ok 7]).answers = [.held, .ok 7] ∧
    bringsValue (board 0x0001 [.held, .ok 7]).device (fieldReg .gain) .held 0x0001 ∧ acceptsWrite (.ok 7) :=
  ⟨rfl, by decide, by decide, rfl, .inr ⟨rfl, rfl⟩, .inr ⟨_, rfl⟩⟩

/-- Shutdown, the other code of SD, is not the power-on write. -/
theorem witness_SetFieldCompletes_shutdown :
    Field.sd.writable = true ∧ enc .sd 1 = some 1 ∧ ¬(Field.sd = .sd ∧ (1 : Reg16) = 0) ∧
    (board 0x0800 [.held, .held]).answers = [.held, .held] ∧
    bringsValue (board 0x0800 [.held, .held]).device (fieldReg .sd) .held 0x0800 ∧ acceptsWrite .held :=
  ⟨rfl, by decide, by decide, rfl, .inr ⟨rfl, rfl⟩, .inl rfl⟩

theorem witness_PowerOnWriteSettlesThenCompletes :
    (board 0x0801 [.held, .held]).answers = [.held, .held] ∧
    bringsValue (board 0x0801 [.held, .held]).device .setting .held 0x0801 ∧ acceptsWrite .held ∧
    (board 0x0801 [.held, .held]).inputs = [] := ⟨rfl, .inr ⟨rfl, rfl⟩, .inl rfl, rfl⟩

theorem witness_SetFieldRejectsBeforeAnyCall : Field.it.writable = true ∧ enc .it 300 = none := by decide

theorem witness_SetFieldBusErrorLeavesDevice :
    Field.gain.writable = true ∧ enc .gain 2 = some 3 ∧
    (board 0x0800 [.err]).answers = [.err] ∧
    (board 0x0800 [.ok 5, .err]).answers = [.ok 5, .err] ∧
    bringsValue (board 0x0800 [.ok 5, .err]).device (fieldReg .gain) (.ok 5) 5 :=
  ⟨rfl, by decide, rfl, rfl, .inl rfl⟩

theorem witness_GetFieldResult :
    (board 0x0300 [.held]).answers = [.held] ∧
    (bringsValue (board 0x0300 [.held]).device (fieldReg .it) .held 0x0300 ∧
      dec .it (fieldOf .it 0x0300) = some 25) ∧
    (board 0 [.ok 0xC000]).answers = [.ok 0xC000] ∧
    (bringsValue (board 0 [.ok 0xC000]).device (fieldReg .intStatus) (.ok 0xC000) 0xC000 ∧
      dec .intStatus (fieldOf .intStatus 0xC000) = none) ∧
    (board 0 [.err]).answers = [.err] :=
  ⟨rfl, ⟨.inr ⟨rfl, rfl⟩, by decide⟩, rfl, ⟨.inl rfl, by decide⟩, rfl⟩

theorem witness_ReadRawResult :
    (board 0 [.held]).answers = [.held] ∧
    bringsValue (board 0 [.held]).device .whiteData .held 0x1234 ∧ (board 0 [.err]).answers = [.err] :=
  ⟨rfl, .inr ⟨rfl, rfl⟩, rfl⟩

theorem witness_ResolutionTableIsStated :
    ((2 : BitVec 2), 4) ∈ [((1 : BitVec 2), 0), (0, 1), (3, 3), (2, 4)] ∧
    ((12 : BitVec 4), 5) ∈ [((3 : BitVec 4), 0), (2, 1), (1, 2), (0, 3), (8, 4), (12, 5)] := by decide

theorem witness_LuxFunctionIsStated :
    ((3 : BitVec 2).toNat, Gain.g1_4) ∈ [(0, Gain.g1), (1, .g2), (2, .g1_8), (3, .g1_4)] ∧
    (4 : BitVec 4).toNat ∉ [0, 1, 2, 3, 8, 12] ∧
    ((12 : BitVec 4).toNat, IntTime.it25) ∈ [(0, IntTime.it100), (1, .it200), (2, .it400), (3, .it800), (8, .it50),
        (12, .it25)] := by decide

theorem witness_RawToLuxResult :
    luxOf hardware 0xFFFF .g1_8 12 = .ok 112784830 ∧ (15 : BitVec 4).toNat ∉ [0, 1, 2, 3, 8, 12] :=
  ⟨by rfl, by decide⟩

theorem witness_ReadLuxCompletes :
    (board 0x0B00 [.held, .held]).answers = [.held, .held] ∧
    bringsValue (board 0x0B00 [.held, .held]).device .setting .held 0x0B00 ∧
    bringsValue (board 0x0B00 [.held, .held]).device .ambientData .held 0xEA60 ∧
    luxOf hardware 0xEA60 (Gain.ofCode ((0x0B00 : Reg16).extractLsb' 11 2)) ((0x0B00 : Reg16).extractLsb' 6 4) =
      .ok 9092 := ⟨rfl, .inr ⟨rfl, rfl⟩, .inr ⟨rfl, rfl⟩, by rfl⟩

theorem witness_ReadLuxErrors :
    ((board 0x0100 [.held]).answers = [.held] ∧
      bringsValue (board 0x0100 [.held]).device .setting .held 0x0100 ∧
      ((0x0100 : Reg16).extractLsb' 6 4).toNat ∉ [0, 1, 2, 3, 8, 12]) ∧
    (board 0x0800 [.err]).answers = [.err] ∧
    ((board 0x0800 [.held, .err]).answers = [.held, .err] ∧
      bringsValue (board 0x0800 [.held, .err]).device .setting .held 0x0800 ∧
      ((0x0800 : Reg16).extractLsb' 6 4).toNat ∈ [0, 1, 2, 3, 8, 12]) :=
  ⟨⟨rfl, .inr ⟨rfl, rfl⟩, by decide⟩, rfl, rfl, .inr ⟨rfl, rfl⟩, by decide⟩

theorem witness_LuxStaysInRange : (120794 : Nat) ≤ 120794 := by decide

theorem witness_LuxIsMonotone :
    (34740 : Reg16) ≤ 34758 ∧ (1001 : Nat) ≤ 1001 ∧ (1001 : Nat) < 1002 := by decide

theorem witness_KneeLeavesGap :
    linearLux hardware 34723 .g2 .it100 = 1000 ∧ linearLux hardware 34758 .g2 .it100 = 1001 :=
  ⟨by rfl, by rfl⟩

theorem witness_ZeroCountIsZeroLux : (12 : BitVec 4).toNat ∈ [0, 1, 2, 3, 8, 12] := by decide

/-- Both ends of the range, a reserved code, and both sides of the overflow at `R = 576`. -/
theorem witness_ThresholdFunctionIsStated :
    (-1 : Int) < 0 ∧ (120000 : Int) < 120001 ∧ (0 : Int) ≤ 120000 ∧ (4 : BitVec 4).toNat ∉ [0, 1, 2, 3, 8, 12] ∧
    intTimeOf 0 = some .it100 ∧ (0xFFFF : Int) < 3775 * 10000 / (resolution .g1 .it100 : Int) ∧
    3774 * 10000 / (resolution .g1 .it100 : Int) ≤ 0xFFFF := by decide

/-- Parameters that saturate. -/
def saturating : Params := { hardware with threshOverflow := .saturate }

theorem witness_OverflowFollowsTheParameter :
    (intTimeOf 3 = some .it800 ∧ (0 : Int) ≤ 120000 ∧ (120000 : Int) ≤ saturating.threshMaxLux ∧
      0xFFFF < (120000 : Int).toNat * 10000 / saturating.resTable .g2 .it800 ∧
      saturating.threshOverflow = .saturate ∧ hardware.threshOverflow = .reject) ∧
    ((576, 3774) ∈ [(36, 235), (72, 471), (144, 943), (288, 1887), (576, 3774), (1152, 7549), (2304, 15099),
        (4608, 30198), (9216, 60397), (18432, 120000)] ∧ resolution .g1 .it100 = 576 ∧
      rawCount hardware 3774 .g1 .it100 ≤ 0xFFFF ∧ ¬rawCount hardware 3775 .g1 .it100 ≤ 0xFFFF) :=
  ⟨⟨by decide, by decide, by decide, by decide, rfl, rfl⟩, by decide, rfl, by decide, by decide⟩

theorem witness_LuxToRawResult :
    rawOf hardware (100 : Word32).toInt .g1_8 3 = .ok 1736 ∧
    rawOf hardware (0xFFFFFFFF : Word32).toInt .g1_8 4 = .error .outOfRange ∧
    rawOf hardware (120000 : Word32).toInt .g2 3 = .error .outOfRange ∧
    rawOf hardware (120000 : Word32).toInt .g2 4 = .error .unsupportedConfiguration :=
  ⟨by decide, by decide, by decide, by decide⟩

theorem witness_OutOfRangeLuxMakesNoCall :
    (0xFFFFFFFF : Word32).toInt < 0 ∧ 120000 < (120001 : Word32).toInt := by decide

theorem witness_SetThreshCompletes :
    0 ≤ (500 : Word32).toInt ∧ (500 : Word32).toInt ≤ 120000 ∧
    (board 0 [.held, .held]).answers = [.held, .held] ∧
    bringsValue (board 0 [.held, .held]).device .setting .held 0 ∧ acceptsWrite .held ∧
    rawOf hardware (500 : Word32).toInt (Gain.ofCode ((0 : Reg16).extractLsb' 11 2))
      ((0 : Reg16).extractLsb' 6 4) = .ok 8680 :=
  ⟨by decide, by decide, rfl, .inr ⟨rfl, rfl⟩, .inl rfl, by decide⟩

theorem witness_SetThreshErrors :
    (0 ≤ (120000 : Word32).toInt ∧ (120000 : Word32).toInt ≤ 120000) ∧
    (board 0 [.err]).answers = [.err] ∧
    ((board 0x0100 [.held]).answers = [.held] ∧
      bringsValue (board 0x0100 [.held]).device .setting .held 0x0100 ∧
      rawOf hardware (120000 : Word32).toInt (Gain.ofCode ((0x0100 : Reg16).extractLsb' 11 2))
        ((0x0100 : Reg16).extractLsb' 6 4) = .error .unsupportedConfiguration) ∧
    (bringsValue (board 0 [.held]).device .setting .held 0 ∧
      rawOf hardware (120000 : Word32).toInt (Gain.ofCode ((0 : Reg16).extractLsb' 11 2))
        ((0 : Reg16).extractLsb' 6 4) = .error .outOfRange) ∧
    ((board 0x1300 [.held, .err]).answers = [.held, .err] ∧
      bringsValue (board 0x1300 [.held, .err]).device .setting .held 0x1300 ∧
      rawOf hardware (120000 : Word32).toInt (Gain.ofCode ((0x1300 : Reg16).extractLsb' 11 2))
        ((0x1300 : Reg16).extractLsb' 6 4) = .ok 65104) :=
  ⟨by decide, rfl, ⟨rfl, .inr ⟨rfl, rfl⟩, by decide⟩, ⟨.inr ⟨rfl, rfl⟩, by decide⟩, rfl, .inr ⟨rfl, rfl⟩, by decide⟩

/-- At both ends of the range, and at the two bounds of `R`. -/
theorem witness_ThresholdRoundTrip :
    ((0 : Int) ≤ 1000 ∧ (1000 : Int) ≤ 1000 ∧ intTimeOf 12 = some .it25 ∧
      rawOf hardware 1000 .g1_8 12 = .ok 542 ∧ resolution .g1_8 .it25 = 18432) ∧
    (rawOf hardware 0 .g1_8 8 = .ok 0 ∧ intTimeOf 8 = some .it50 ∧ resolution .g1_8 .it50 ≤ 9216) :=
  ⟨⟨by decide, by decide, by decide, by rfl, rfl⟩, by rfl, by decide, by decide⟩

/-- A compensated reading at the mapped count, which the last clause is about. -/
theorem witness_ThresholdPathIsNotCompensated :
    intTimeOf 12 = some .it25 ∧ rawOf hardware 120000 .g1_8 12 = .ok 65104 ∧
    1000 < linearLux hardware 65104 .g1_8 .it25 := ⟨by decide, by rfl, by decide⟩

theorem witness_CommandsMakeOnlyTheirStatedCalls :
    Instr.readLux.wellFormed = true ∧
    ∃ t, exec .readLux (board 0x0800 [.held, .held]) = .next t ∧ t.history.filterMap callShape = [(false, 0), (false, 4)] :=
  ⟨rfl, _, rfl, by decide⟩

/-- With no answer listed, and with one listed for the first of two calls. -/
theorem witness_UnlistedAnswerIsFree :
    (State.reset.answers = [] ∧ Field.gain.writable = true ∧ enc .gain 2 ≠ none ∧ 0 ≤ (0 : Word32).toInt ∧
      (120000 : Word32).toInt ≤ 120000) ∧
    (board 0x0300 [.held]).answers = [.held] ∧
    (enc .gain 2 = some 3 ∧ bringsValue (board 0x0300 [.held]).device (fieldReg .gain) .held 0x0300) ∧
    (bringsValue (board 0x0300 [.held]).device .setting .held 0x0300 ∧
      ((0x0300 : Reg16).extractLsb' 6 4).toNat ∈ [0, 1, 2, 3, 8, 12]) ∧
    rawOf hardware (10 : Word32).toInt (Gain.ofCode ((0x0300 : Reg16).extractLsb' 11 2))
      ((0x0300 : Reg16).extractLsb' 6 4) = .ok 43 :=
  ⟨⟨rfl, rfl, by decide, by decide, by decide⟩, rfl, ⟨by decide, .inr ⟨rfl, rfl⟩⟩, ⟨.inr ⟨rfl, rfl⟩, by decide⟩,
    by decide⟩

theorem witness_StuckCommandStaysStuck :
    ∃ t, exec (.setField .gain 2) (board 0x0001 [.held, .silent]) = .next t ∧ t.phase = .exec ∧ t.inputs = [] :=
  ⟨_, rfl, rfl, rfl⟩

theorem witness_SilentCallSticks :
    (board 0 [.silent]).answers = [.silent] ∧ Field.gain.writable = true ∧ enc .gain 2 = some 3 ∧
    0 ≤ (0 : Word32).toInt ∧ (120000 : Word32).toInt ≤ 120000 := ⟨rfl, rfl, by decide, by decide, by decide⟩

/-- The second call is never answered. -/
theorem witness_SilentCallSticks_second :
    (board 0x0300 [.held, .silent]).answers = [.held, .silent] ∧
    (Field.gain.writable = true ∧ enc .gain 2 = some 3 ∧
      bringsValue (board 0x0300 [.held, .silent]).device (fieldReg .gain) .held 0x0300) ∧
    (bringsValue (board 0x0300 [.held, .silent]).device .setting .held 0x0300 ∧
      ((0x0300 : Reg16).extractLsb' 6 4).toNat ∈ [0, 1, 2, 3, 8, 12]) ∧
    (0 ≤ (10 : Word32).toInt ∧ (10 : Word32).toInt ≤ 120000 ∧
      rawOf hardware (10 : Word32).toInt (Gain.ofCode ((0x0300 : Reg16).extractLsb' 11 2))
        ((0x0300 : Reg16).extractLsb' 6 4) = .ok 43) :=
  ⟨rfl, ⟨rfl, by decide, .inr ⟨rfl, rfl⟩⟩, ⟨.inr ⟨rfl, rfl⟩, by decide⟩, by decide, by decide, by decide⟩

/-- A reset between an answered call and the next one: the call stays in the history, and there is no response
(70_reset_and_hazards.md R232, 00_scope.md R14). -/
theorem test_reset_between_calls :
    callsAfter (step { betweenCalls with inputs := [.reset false] }) = some [(false, 0x00)] ∧
    response (step { betweenCalls with inputs := [.reset false] }) = none := by decide

/-- The own step between the calls makes the second one and does not complete (00_scope.md R14). -/
theorem test_step_between_calls :
    callsAfter (step betweenCalls) = some [(false, 0x00), (false, 0x04)] ∧ response (step betweenCalls) = none := by
  decide

theorem witness_DeviceIsReplayOfHistory :
    (∀ e ∈ (presented 0x05 0x02 0x0001 [.held, .held]).inputs, e ≠ .powerLoss ∧ e ≠ .reset true) ∧
    ∃ t, Host.Core.run Sys2Proof.core 1 (presented 0x05 0x02 0x0001 [.held, .held]) = .next t ∧
      (t : State).device.setting = 0x1801 := by
  refine ⟨by decide, _, rfl, by decide⟩

theorem witness_FieldSetIsReadBack :
    Field.sd.writable = true ∧ enc .sd 0 ≠ none ∧
    (board 0x0801 [.held, .held, .held]).answers = [.held, .held, .held] ∧ Field.gain ≠ .sd :=
  ⟨rfl, by decide, rfl, by decide⟩

theorem witness_PowerLossIsInvisibleToTheBlock :
    { settling with inputs := [.powerLoss] }.inputs = [.powerLoss] := rfl

theorem witness_CommandCompletesWithItsStatuses :
    Instr.readLux.wellFormed = true ∧
    ∃ t, exec .readLux (board 0x0100 [.held]) = .next t ∧ t.phase = .idle ∧ t.rspStatus = 3 :=
  ⟨rfl, _, rfl, by decide, by decide⟩

theorem witness_ErrorLeavesBlockAndDevice :
    ∃ t, exec (.setField .gain 2) (board 0x0001 [.held, .err]) = .next t ∧ t.phase = .idle ∧ t.rspStatus ≠ 0 :=
  ⟨_, rfl, rfl, by decide⟩

theorem witness_AnsweredCommandCompletes :
    (board 0x0001 [.held, .err]).answers = [.held, .err] ∧ Answer.held ≠ .silent ∧ Answer.err ≠ .silent := by decide

theorem witness_CommandsKeepTheirWords :
    ∃ t, exec (.setField .sd 0) (board 0x0001 [.held, .held]) = .next t ∧ t.phase = .settle := ⟨_, rfl, by decide⟩

theorem witness_CommandEndsInOneOfThreeWays :
    (board 0x0801 [.held, .held]).busy = false ∧ (board 0x0801 [.held, .held]).inflight = none := ⟨rfl, rfl⟩

/-- The invariant is met beyond reset, on a block that waits for a call, and on one between two calls. -/
theorem witness_StepKeepsInvariant :
    (Inv stuckOnWrite ∧ ∃ t, step stuckOnWrite = .next t) ∧
    Inv betweenCalls ∧ ∃ t, step betweenCalls = .next t := by
  refine ⟨⟨⟨by decide, by decide, by decide, by decide, by decide, ?_, ?_⟩, _, rfl⟩,
    ⟨by decide, by decide, by decide, by decide, by decide, ?_, ?_⟩, _, rfl⟩
  · rintro a v h; cases h; rfl
  · rintro e h; cases h
  · rintro a v h; cases h
  · rintro e h; cases List.mem_singleton.1 h; exact ⟨rfl, by decide⟩

theorem witness_HistoryOnlyGrows :
    ∃ t, Host.Core.run Sys2Proof.core 1 (presented 0x07 0 0x0800 [.held, .held]) = .next t ∧
      (t : State).history.length = 2 := ⟨_, rfl, by decide⟩

end Sys2Proof.Tests
end

