-- ==== Sys2Proof/Proofs/StateInvariant.lean ====
section
/-! PROOFS. The machine's invariant holds at reset and every step keeps it (O57, O58). The idea is a weaker predicate,
`Running`, which every update inside a command keeps and from which each way a step can leave the command meets
`Inv` again. -/

namespace Sys2Proof.Machine

open Sys2Proof

/-- What the invariant leaves true in the middle of a command, between acceptance and the state the step ends in:
`Inv` less its clauses on `BUSY`, `PHASE` and the step to come. -/
structure Running (s : State) : Prop where
  no_response : s.rspValid = false
  status_code : s.rspStatus ≠ 7
  error_result : s.rspStatus ≠ 0 → s.rspResult = 0
  no_call : s.inflight = none
  history_good : ∀ e ∈ s.history, goodEvent e

/-! ### The records and codes a command can make -/

theorem goodEvent_readEvent (a : RegAddr) (answer : Option Reg16) : goodEvent (readEvent a answer) :=
  ⟨rfl, by cases a <;> decide⟩

theorem goodEvent_writeEvent {a : RegAddr} (hw : regWritable a = true) (v : Reg16) (ok : Bool) :
    goodEvent (writeEvent a v ok) := by
  refine ⟨rfl, ?_⟩
  revert hw
  cases a <;> decide

/-- Status code 7 belongs to no status (60_exceptions.md R200). -/
theorem Status.code_ne_seven (st : Status) : st.code ≠ 7 := by
  cases st <;> decide

/-- Appending a good record keeps a history good. -/
theorem goodEvent_of_mem_append {history : List Event} {e : Event} (hh : ∀ x ∈ history, goodEvent x)
    (he : goodEvent e) : ∀ x ∈ history ++ [e], goodEvent x := by
  intro x hx
  rcases List.mem_append.1 hx with hx | hx
  · exact hh x hx
  · rwa [List.mem_singleton.1 hx]

/-! ### What the invariant says in each phase -/

theorem Inv.phase_idle {s : State} (h : Inv s) (hb : s.busy = false) : s.phase = .idle := by
  by_contra hp
  simp [h.busy_iff.2 hp] at hb

/-- Outside EXEC no call is in flight and no step of a command is to come. -/
theorem Inv.nothing_pending {s : State} (h : Inv s) (hp : s.phase ≠ .exec) :
    s.inflight = none ∧ s.progress = none := by
  have hn := mt h.exec_iff.2 hp
  simpa using hn

theorem Inv.running {s : State} (h : Inv s) (hb : s.busy = true) (hi : s.inflight = none) : Running s where
  no_response := by
    cases hv : s.rspValid with
    | false => rfl
    | true => simp [h.valid_idle hv] at hb
  status_code := h.status_code
  error_result := h.error_result
  no_call := hi
  history_good := h.history_good

/-- An accepted command starts with no call in flight and no step to come. -/
theorem Inv.running_accept {s : State} (h : Inv s) (hb : s.busy = false) (cw opd : Word32) :
    Running (accept cw opd s) ∧ (accept cw opd s).progress = none := by
  obtain ⟨hi, hl⟩ := h.nothing_pending (by simp [h.phase_idle hb])
  exact ⟨⟨rfl, h.status_code, h.error_result, hi, h.history_good⟩, hl⟩

/-! ### The updates inside a command keep `Running` -/

theorem Running.startCall {s : State} (h : Running s) : Running (startCall s) :=
  ⟨h.no_response, h.status_code, h.error_result, h.no_call, h.history_good⟩

theorem Running.land {s : State} (h : Running s) (a : RegAddr) (v : Reg16) : Running (land a v s) :=
  ⟨h.no_response, h.status_code, h.error_result, h.no_call, h.history_good⟩

theorem Running.leaveSteps {s : State} (h : Running s) : Running (leaveSteps s) :=
  ⟨h.no_response, h.status_code, h.error_result, h.no_call, h.history_good⟩

theorem Running.record {s : State} (h : Running s) {e : Event} (he : goodEvent e) : Running (record e s) :=
  ⟨h.no_response, h.status_code, h.error_result, h.no_call, goodEvent_of_mem_append h.history_good he⟩

/-- A read that is answered. -/
theorem Running.readCall {s : State} (h : Running s) (a : RegAddr) (answer : Option Reg16) :
    Running (Machine.record (readEvent a answer) (Machine.startCall s)) :=
  h.startCall.record (goodEvent_readEvent a answer)

/-- A write that is answered. -/
theorem Running.writeCall {s : State} (h : Running s) {a : RegAddr} (hw : regWritable a = true) (v : Reg16)
    (ok : Bool) : Running (Machine.record (writeEvent a v ok) (Machine.startCall s)) :=
  h.startCall.record (goodEvent_writeEvent hw v ok)

/-! ### The ends of a step inside a command meet the invariant -/

theorem Running.inv_finish {s : State} (h : Running s) (hl : s.progress = none) (r : Word32) :
    Inv (finish r s) where
  busy_iff := by simp
  valid_idle := by simp
  status_code := by simp
  error_result := by simp
  exec_iff := by simp [h.no_call, hl]
  inflight_writable := by simp [h.no_call]
  history_good := h.history_good

theorem Running.inv_raise {s : State} (h : Running s) (hl : s.progress = none) (st : Status) :
    Inv (raise st s) where
  busy_iff := by simp
  valid_idle := by simp
  status_code := st.code_ne_seven
  error_result := by simp
  exec_iff := by simp [h.no_call, hl]
  inflight_writable := by simp [h.no_call]
  history_good := h.history_good

theorem Running.inv_enterSettle {s : State} (h : Running s) (hl : s.progress = none) (r : Word32) :
    Inv (enterSettle r s) where
  busy_iff := by simp
  valid_idle := by simp [h.no_response]
  status_code := h.status_code
  error_result := h.error_result
  exec_iff := by simp [h.no_call, hl]
  inflight_writable := by simp [h.no_call]
  history_good := h.history_good

/-- A call that is never answered, whose write, if it is one, names a writable register. -/
theorem Running.inv_hang {s : State} (h : Running s) {c : BusCall}
    (hw : ∀ a v, c = .write a v → regWritable a = true) : Inv (hang c s) where
  busy_iff := by simp
  valid_idle := by simp [h.no_response]
  status_code := h.status_code
  error_result := h.error_result
  exec_iff := by simp
  inflight_writable := fun a v e => hw a v (Option.some.inj e)
  history_good := h.history_good

theorem Running.inv_hang_read {s : State} (h : Running s) (a : RegAddr) : Inv (hang (.read a) s) :=
  h.inv_hang (by simp)

theorem Running.inv_hang_write {s : State} (h : Running s) {a : RegAddr} (hw : regWritable a = true) (v : Reg16) :
    Inv (hang (.write a v) s) :=
  h.inv_hang fun _ _ e => by cases e; exact hw

theorem Running.inv_awaitStep {s : State} (h : Running s) (hb : s.busy = true) (hp : s.phase = .exec)
    (l : List (Option Reg16)) : Inv (awaitStep l s) where
  busy_iff := by simp [hb, hp]
  valid_idle := by simp [h.no_response]
  status_code := h.status_code
  error_result := h.error_result
  exec_iff := by simp [hp]
  inflight_writable := by simp [h.no_call]
  history_good := h.history_good

/-! ### A command's steps keep the invariant -/

/-- A whole command, by the ways it can go. -/
theorem Runs.inv {allowed : List Status} {ops : Calls} {s t : State} (h : Runs allowed ops s t)
    (hr : Running s) (hl : s.progress = none) : Inv t := by
  induction h with
  | finish ops r s _ => exact hr.inv_finish hl r
  | raise ops st s _ _ => exact hr.inv_raise hl st
  | settle ops r s => exact hr.inv_enterSettle hl r
  | readOk a v ops s t _ ih => exact ih (hr.readCall a (some v)) hl
  | readErr a ops s _ => exact (hr.readCall a none).inv_raise hl .busError
  | readNever a ops s => exact hr.startCall.inv_hang_read a
  | writeOk a v r s _ hw => exact ((hr.writeCall hw v true).land a v).inv_finish hl r
  | writeSettle a v r s hw => exact ((hr.writeCall hw v true).land a v).inv_enterSettle hl r
  | writeErr a v s _ hw => exact (hr.writeCall hw v false).inv_raise hl .busError
  | writeNever a v s hw => exact hr.startCall.inv_hang_write hw v

/-- A program within bounds writes only writable registers. -/
theorem Within.write_writable {allowed : List Status} {ops : Calls} {a : RegAddr} {v : Reg16} {p : Program}
    (h : Within allowed ops (.write a v p)) : regWritable a = true := by
  cases h with
  | writeFinish _ _ _ hw _ _ => exact hw
  | writeSettle _ _ _ hw _ => exact hw

/-- One step of a command that takes its steps one at a time. -/
theorem Within.inv_nextStep {allowed : List Status} {ops : Calls} {p : Program} (h : Within allowed ops p)
    {s : State} (hr : Running s) (hb : s.busy = true) (hp : s.phase = .exec) (l : List (Option Reg16)) :
    Inv (p.nextStep l s) := by
  rcases p.nextStep_cases l s with ⟨r, -, e⟩ | ⟨st, -, e⟩ | ⟨r, -, e⟩ | ⟨a, k, -, hread⟩ | ⟨a, v, q, rfl, hwrite⟩
  · rw [e]; exact hr.leaveSteps.inv_finish rfl r
  · rw [e]; exact hr.leaveSteps.inv_raise rfl st
  · rw [e]; exact hr.leaveSteps.inv_enterSettle rfl r
  · rcases hread with ⟨v, -, e⟩ | ⟨-, e⟩ | ⟨-, e⟩ <;> rw [e]
    · exact (hr.readCall a (some v)).inv_awaitStep hb hp _
    · exact (hr.readCall a none).inv_awaitStep hb hp _
    · exact hr.startCall.inv_hang_read a
  · have hw := h.write_writable
    rcases hwrite with ⟨-, e⟩ | ⟨-, e⟩ | ⟨-, e⟩ <;> rw [e]
    · exact ((hr.writeCall hw v true).land a v).inv_awaitStep hb hp _
    · exact (hr.writeCall hw v false).inv_awaitStep hb hp _
    · exact hr.startCall.inv_hang_write hw v

/-! ### Every event keeps the invariant -/

theorem Inv.waitSettle {s : State} (h : Inv s) : Inv (waitSettle s) :=
  ⟨h.busy_iff, h.valid_idle, h.status_code, h.error_result, h.exec_iff, h.inflight_writable,
    goodEvent_of_mem_append h.history_good trivial⟩

theorem Inv.endSettle {s : State} (h : Inv s) (hp : s.phase = .settle) : Inv (endSettle s) := by
  obtain ⟨hi, hl⟩ := h.nothing_pending (by simp [hp])
  exact (h.running (h.busy_iff.2 (by simp [hp])) hi).inv_finish hl _

theorem Inv.losePower {s : State} (h : Inv s) : Inv (losePower s) :=
  ⟨h.busy_iff, h.valid_idle, h.status_code, h.error_result, h.exec_iff, h.inflight_writable, h.history_good⟩

/-- The inputs still to come are not the invariant's. -/
theorem Inv.withInputs {s : State} (h : Inv s) (rest : List Input) : Inv { s with inputs := rest } :=
  ⟨h.busy_iff, h.valid_idle, h.status_code, h.error_result, h.exec_iff, h.inflight_writable, h.history_good⟩

/-- A reset asks of the state before it only that its records are good. -/
theorem inv_blockReset {s : State} (h : ∀ e ∈ s.history, goodEvent e) (landed : Bool) :
    Inv (blockReset landed s) where
  busy_iff := by simp
  valid_idle := by simp
  status_code := by simp
  error_result := by simp
  exec_iff := by simp
  inflight_writable := by simp
  history_good := h

theorem Inv.ownStep {s : State} (h : Inv s) : Inv (ownStep s) := by
  rcases ownStep_cases s with e | ⟨l, hp, hi, -, e⟩ | ⟨-, -, e⟩ | ⟨hp, -, e⟩ <;> rw [e]
  · exact h
  · obtain ⟨allowed, ops, hprog⟩ := latchedProgram_within s
    obtain ⟨ops', hrest⟩ := hprog.after l
    have hb := h.busy_iff.2 (by simp [hp])
    exact hrest.inv_nextStep (h.running hb hi) hb hp l
  · exact h.waitSettle
  · exact h.endSettle hp

theorem Inv.takePresent {s t : State} {cw opd : Word32} (h : Inv s) (ht : takePresent cw opd s = .next t) :
    Inv t := by
  cases hb : s.busy with
  | true =>
    rw [takePresent_busy hb] at ht
    cases ht
    exact h
  | false =>
    obtain ⟨hr, hl⟩ := h.running_accept hb cw opd
    rw [takePresent_idle hb] at ht
    cases hd : decode cw opd with
    | command i =>
      rw [runCommand_command hd] at ht
      exact (runs_of_exec ht).inv hr hl
    | illegal why =>
      rw [runCommand_illegal hd] at ht
      cases ht
      exact hr.inv_raise hl .illegalCommand

theorem Inv.takePresentStepwise {s : State} (h : Inv s) (cw opd : Word32) :
    Inv (takePresentStepwise cw opd s) := by
  cases hb : s.busy with
  | true => rwa [takePresentStepwise_busy hb]
  | false =>
    rw [takePresentStepwise_idle hb]
    exact (h.running_accept hb cw opd).1.inv_awaitStep rfl rfl []

theorem Inv.takeInput {s t : State} {e : Input} (h : Inv s) (ht : takeInput e s = .next t) : Inv t := by
  cases e with
  | present cw opd => exact h.takePresent ht
  | presentStepwise cw opd => cases ht; exact h.takePresentStepwise cw opd
  | reset landed => cases ht; exact inv_blockReset h.history_good landed
  | powerLoss => cases ht; exact h.losePower
  | quiet => cases ht; exact h.ownStep

/-- Settles O58: a step is the block's own step or takes an input, and each keeps the invariant. -/
theorem stepKeepsInvariant : Obligations.StepKeepsInvariant := by
  intro s t h ht
  rcases step_cases ht with ⟨-, rfl⟩ | ⟨e, rest, -, hin⟩
  · exact h.ownStep
  · exact (h.withInputs rest).takeInput hin

/-- Settles O57: in the reset state every register has its idle value and no record is there. -/
theorem resetMeetsInvariant : Obligations.ResetMeetsInvariant where
  busy_iff := by decide
  valid_idle := by decide
  status_code := by decide
  error_result := by decide
  exec_iff := by decide
  inflight_writable := fun _ _ e => nomatch e
  history_good := fun _ he => nomatch he

end Sys2Proof.Machine
end

