-- ==== Sys2Proof/Proofs/StateRegisters.lean ====
section
/-! PROOFS. The block's registers at reset and under a command (O1, O55, O56), and the field table (O11, O12). -/

namespace Sys2Proof.Machine

open Sys2Proof

/-! ### A command and the response registers it finds -/

/-- `s` with other contents of the response registers (10_state.md R23). -/
def State.withResponse (valid : Bool) (status : BitVec 3) (result : Word32) (s : State) : State :=
  { s with rspValid := valid, rspStatus := status, rspResult := result }

/-- A program that completes overwrites the response registers, and one that does not complete leaves them; no call
of it reads them. -/
theorem Program.run_withResponse (p : Program) (valid : Bool) (status : BitVec 3) (result : Word32) (s : State) :
    p.run (s.withResponse valid status result) =
      if (p.run s).phase = .idle then p.run s else (p.run s).withResponse valid status result := by
  induction p generalizing s with
  | finish r => rfl
  | raise st => rfl
  | settle r => rfl
  | read a k ih =>
    rcases memRead_cases a s (fun v s₁ => (k v).run s₁) with ⟨v, h, e⟩ | ⟨h, e⟩ | ⟨h, e⟩ <;>
      rw [Program.run_read a k s, e, Program.run_read]
    · rw [memRead_of_ok (s := s.withResponse valid status result) h]
      exact ih v (record (readEvent a (some v)) (startCall s))
    · rw [memRead_of_err (s := s.withResponse valid status result) h]; rfl
    · rw [memRead_of_never (s := s.withResponse valid status result) h]; rfl
  | write a v p ih =>
    rcases memWrite_cases a v s (fun s₁ => p.run s₁) with ⟨h, e⟩ | ⟨h, e⟩ | ⟨h, e⟩ <;>
      rw [Program.run_write a v p s, e, Program.run_write]
    · rw [memWrite_of_ok (s := s.withResponse valid status result) h]
      exact ih (land a v (record (writeEvent a v true) (startCall s)))
    · rw [memWrite_of_err (s := s.withResponse valid status result) h]; rfl
    · rw [memWrite_of_never (s := s.withResponse valid status result) h]; rfl

/-- Settles O56: every command is a program, and no program reads the response registers. -/
theorem commandsIgnoreEarlierResponse : Obligations.CommandsIgnoreEarlierResponse := by
  intro i s valid status result
  refine ⟨(programOf i).run s, exec_eq_run i s, ?_⟩
  rw [exec_eq_run]
  exact congrArg Host.Outcome.next ((programOf i).run_withResponse valid status result s)

/-! ### What a command keeps -/

/-- However a command goes, it keeps its words, the inputs and the count of power losses. -/
theorem Runs.keeps_words {allowed : List Status} {ops : Calls} {s t : State} (h : Runs allowed ops s t) :
    t.cw = s.cw ∧ t.opd = s.opd ∧ t.inputs = s.inputs ∧ t.powerCycles = s.powerCycles := by
  induction h with
  | readOk a v ops s t _ ih => simpa using ih
  | _ => simp

/-- Settles O55, by the ways a command can go. -/
theorem commandsKeepTheirWords : Obligations.CommandsKeepTheirWords :=
  fun _ _ _ h => (runs_of_exec h).keeps_words

/-! ### Reset -/

/-- Settles O1: each register's reset value is the one `State.reset` writes out. -/
theorem resetStateHoldsStatedValues : Obligations.ResetStateHoldsStatedValues :=
  ⟨rfl, rfl, rfl, rfl, rfl, rfl, rfl⟩

/-! ### The field table -/

/-- Settles O11, by evaluating the eight rows. -/
theorem fieldDescriptorTableIsStated : Obligations.FieldDescriptorTableIsStated := by
  unfold Obligations.FieldDescriptorTableIsStated
  decide

/-- Of two distinct fields of one register, one ends at or below where the other begins (10_state.md R46). -/
theorem field_ranges_disjoint {f g : Field} (hne : f ≠ g) (hreg : fieldReg f = fieldReg g) :
    fieldShift f + fieldWidth f ≤ fieldShift g ∨ fieldShift g + fieldWidth g ≤ fieldShift f := by
  revert hne hreg
  cases f <;> cases g <;> decide

/-- Settles O12: a bit of both masks would lie in both fields' ranges, which are disjoint. -/
theorem fieldsOfOneRegisterNeverOverlap : Obligations.FieldsOfOneRegisterNeverOverlap := by
  intro f g hne hreg
  have hdisj := field_ranges_disjoint hne hreg
  apply BitVec.eq_of_getLsbD_eq
  intro i hi
  simp only [BitVec.getLsbD_and, placedMask_getLsbD, BitVec.ofNat_eq_ofNat, BitVec.getLsbD_zero,
    Bool.and_eq_false_iff, decide_eq_false_iff_not]
  omega

end Sys2Proof.Machine
end

