-- ==== Sys2Proof/Proofs/MemoryHistory.lean ====
section
/-! PROOFS. What a command, a step and a run append to the transport history, and that the device's registers follow
it (O44, O48, O60). Two ideas: `CallRecord` ties each record of a command to the call of `callsOf` it answers, and
`Logs` says of a change of state that its records, replayed, give the device's registers; `Logs` composes. -/

namespace Sys2Proof.Machine

open Sys2Proof

/-! ### The records of calls -/

/-- The record of an answered call at the given place of a command's calls. -/
inductive CallRecord : Bool × RegAddr → Event → Prop where
  | read (a : RegAddr) (answer : Option Reg16) : CallRecord (false, a) (readEvent a answer)
  | write (a : RegAddr) (v : Reg16) (ok : Bool) (hw : regWritable a = true) :
      CallRecord (true, a) (writeEvent a v ok)

/-- A command's record is one the block may make, of a call. -/
theorem CallRecord.good {c : Bool × RegAddr} {e : Event} (h : CallRecord c e) : goodEvent e ∧ e ≠ .settle := by
  cases h with
  | read a answer => exact ⟨goodEvent_readEvent a answer, nofun⟩
  | write a v ok hw => exact ⟨goodEvent_writeEvent hw v ok, nofun⟩

theorem CallRecord.callShape_eq {c : Bool × RegAddr} {e : Event} (h : CallRecord c e) :
    callShape e = some (c.1, regByte c.2) := by
  cases h <;> rfl

/-- The records of some calls have those calls' kinds and addresses, in the calls' order. -/
theorem filterMap_callShape_of_records {made : Calls} {ev : List Event} (h : List.Forall₂ CallRecord made ev) :
    ev.filterMap callShape = made.map fun c => (c.1, regByte c.2) := by
  induction h with
  | nil => rfl
  | cons hc _ ih => rw [List.filterMap_cons_some hc.callShape_eq, ih, List.map_cons]

theorem good_of_records {made : Calls} {ev : List Event} (h : List.Forall₂ CallRecord made ev) :
    ∀ e ∈ ev, goodEvent e ∧ e ≠ .settle := by
  induction h with
  | nil => nofun
  | cons hc _ ih => exact List.forall_mem_cons.2 ⟨hc.good, ih⟩

/-- No command has more than two calls (20_memory.md R69). -/
theorem callsOf_length_le (i : Instr) : (callsOf i).length ≤ 2 := by
  cases i <;> simp [callsOf, readsOf, writeOf]

/-! ### The device's registers follow the records -/

/-- Each register's address byte names it. -/
@[simp] theorem regOfByte_regByte (a : RegAddr) : regOfByte (regByte a) = some a := by
  cases a <;> rfl

@[simp] theorem replayEvent_readEvent (d : DeviceRegs) (a : RegAddr) (answer : Option Reg16) :
    replayEvent d (readEvent a answer) = d := rfl

@[simp] theorem replayEvent_writeEvent_ok (d : DeviceRegs) (a : RegAddr) (v : Reg16) :
    replayEvent d (writeEvent a v true) = deviceWrite d a v := by
  simp [replayEvent, writeEvent]

@[simp] theorem replayEvent_writeEvent_failed (d : DeviceRegs) (a : RegAddr) (v : Reg16) :
    replayEvent d (writeEvent a v false) = d := rfl

@[simp] theorem replayEvent_settle (d : DeviceRegs) : replayEvent d .settle = d := rfl

/-- From `s` to `t` the records `ev` are appended, the device's registers follow them, and no input is taken. -/
structure Logs (ev : List Event) (s t : State) : Prop where
  history : t.history = s.history ++ ev
  device : t.device = ev.foldl replayEvent s.device
  inputs : t.inputs = s.inputs

/-- A change of other fields makes no record. -/
theorem Logs.of_same {s t : State} (hh : t.history = s.history) (hd : t.device = s.device)
    (hi : t.inputs = s.inputs) : Logs [] s t :=
  ⟨by simpa using hh, hd, hi⟩

theorem Logs.refl (s : State) : Logs [] s s := .of_same rfl rfl rfl

theorem Logs.trans {ev ev' : List Event} {s t u : State} (h : Logs ev s t) (h' : Logs ev' t u) :
    Logs (ev ++ ev') s u where
  history := by rw [h'.history, h.history, List.append_assoc]
  device := by rw [h'.device, h.device, List.foldl_append]
  inputs := h'.inputs.trans h.inputs

theorem Logs.readCall (s : State) (a : RegAddr) (answer : Option Reg16) :
    Logs [readEvent a answer] s (record (readEvent a answer) (startCall s)) :=
  ⟨rfl, rfl, rfl⟩

theorem Logs.writeFailed (s : State) (a : RegAddr) (v : Reg16) :
    Logs [writeEvent a v false] s (record (writeEvent a v false) (startCall s)) :=
  ⟨rfl, rfl, rfl⟩

theorem Logs.writeLanded (s : State) (a : RegAddr) (v : Reg16) :
    Logs [writeEvent a v true] s (land a v (record (writeEvent a v true) (startCall s))) :=
  ⟨rfl, by simp, rfl⟩

/-! ### A command -/

/-- However a command goes, it answers some first part of its calls, records them in order, and the device's
registers follow the records. -/
theorem Runs.logs {allowed : List Status} {ops : Calls} {s t : State} (h : Runs allowed ops s t) :
    ∃ made ev, made <+: ops ∧ List.Forall₂ CallRecord made ev ∧ Logs ev s t := by
  induction h with
  | finish | raise | settle | readNever | writeNever =>
    exact ⟨[], [], List.nil_prefix, .nil, .of_same rfl rfl rfl⟩
  | readOk a v ops s t _ ih =>
    obtain ⟨made, ev, hpre, hrec, hlog⟩ := ih
    exact ⟨(false, a) :: made, readEvent a (some v) :: ev, List.cons_prefix_cons.2 ⟨rfl, hpre⟩,
      .cons (.read a (some v)) hrec, (Logs.readCall s a (some v)).trans hlog⟩
  | readErr a ops s _ =>
    exact ⟨[(false, a)], [readEvent a none], List.cons_prefix_cons.2 ⟨rfl, List.nil_prefix⟩,
      .cons (.read a none) .nil, (Logs.readCall s a none).trans (.of_same rfl rfl rfl)⟩
  | writeOk a v r s _ hw =>
    exact ⟨[(true, a)], [writeEvent a v true], List.prefix_rfl, .cons (.write a v true hw) .nil,
      (Logs.writeLanded s a v).trans (.of_same rfl rfl rfl)⟩
  | writeSettle a v r s hw =>
    exact ⟨[(true, a)], [writeEvent a v true], List.prefix_rfl, .cons (.write a v true hw) .nil,
      (Logs.writeLanded s a v).trans (.of_same rfl rfl rfl)⟩
  | writeErr a v s _ hw =>
    exact ⟨[(true, a)], [writeEvent a v false], List.prefix_rfl, .cons (.write a v false hw) .nil,
      (Logs.writeFailed s a v).trans (.of_same rfl rfl rfl)⟩

/-- Settles O44: the records answer a first part of the command's calls, whose kinds and addresses are the
template's. -/
theorem commandsMakeOnlyTheirStatedCalls : Obligations.CommandsMakeOnlyTheirStatedCalls := by
  intro i s t hw h
  obtain ⟨made, ev, hpre, hrec, hlog⟩ := (runs_of_exec_wellFormed hw h).logs
  refine ⟨ev, hlog.history, good_of_records hrec, ?_⟩
  rw [filterMap_callShape_of_records hrec, callTemplate_eq]
  exact hpre.map _

/-! ### A step -/

/-- One step of a command makes at most one record. -/
theorem Program.nextStep_logs (p : Program) (l : List (Option Reg16)) (s : State) :
    ∃ ev, ev.length ≤ 1 ∧ Logs ev s (p.nextStep l s) := by
  rcases p.nextStep_cases l s with ⟨r, -, e⟩ | ⟨st, -, e⟩ | ⟨r, -, e⟩ | ⟨a, k, -, hread⟩ | ⟨a, v, q, -, hwrite⟩
  · rw [e]; exact ⟨[], Nat.zero_le 1, .of_same rfl rfl rfl⟩
  · rw [e]; exact ⟨[], Nat.zero_le 1, .of_same rfl rfl rfl⟩
  · rw [e]; exact ⟨[], Nat.zero_le 1, .of_same rfl rfl rfl⟩
  · rcases hread with ⟨v, -, e⟩ | ⟨-, e⟩ | ⟨-, e⟩ <;> rw [e]
    · exact ⟨_, le_rfl, (Logs.readCall s a (some v)).trans (.of_same rfl rfl rfl)⟩
    · exact ⟨_, le_rfl, (Logs.readCall s a none).trans (.of_same rfl rfl rfl)⟩
    · exact ⟨[], Nat.zero_le 1, .of_same rfl rfl rfl⟩
  · rcases hwrite with ⟨-, e⟩ | ⟨-, e⟩ | ⟨-, e⟩ <;> rw [e]
    · exact ⟨_, le_rfl, (Logs.writeLanded s a v).trans (.of_same rfl rfl rfl)⟩
    · exact ⟨_, le_rfl, (Logs.writeFailed s a v).trans (.of_same rfl rfl rfl)⟩
    · exact ⟨[], Nat.zero_le 1, .of_same rfl rfl rfl⟩

/-- The block's own step makes at most one record. -/
theorem ownStep_logs (s : State) : ∃ ev, ev.length ≤ 1 ∧ Logs ev s (ownStep s) := by
  rcases ownStep_cases s with e | ⟨l, -, -, -, e⟩ | ⟨-, -, e⟩ | ⟨-, -, e⟩ <;> rw [e]
  · exact ⟨[], Nat.zero_le 1, .refl s⟩
  · exact Program.nextStep_logs _ l s
  · exact ⟨[.settle], le_rfl, rfl, rfl, rfl⟩
  · exact ⟨[], Nat.zero_le 1, .of_same rfl rfl rfl⟩

/-- A presentation makes at most the two records of a command. -/
theorem takePresent_logs {cw opd : Word32} {s t : State} (h : takePresent cw opd s = .next t) :
    ∃ ev, ev.length ≤ 2 ∧ Logs ev s t := by
  have haccept : Logs [] s (accept cw opd s) := .of_same rfl rfl rfl
  cases hb : s.busy with
  | true =>
    rw [takePresent_busy hb] at h
    cases h
    exact ⟨[], Nat.zero_le 2, .refl s⟩
  | false =>
    rw [takePresent_idle hb] at h
    cases hd : decode cw opd with
    | command i =>
      rw [runCommand_command hd] at h
      obtain ⟨made, ev, hpre, hrec, hlog⟩ := (runs_of_exec h).logs
      have hlen : ev.length ≤ 2 := calc
        ev.length = made.length := hrec.length_eq.symm
        _ ≤ (callsOf i).length := hpre.length_le
        _ ≤ 2 := callsOf_length_le i
      exact ⟨ev, hlen, haccept.trans hlog⟩
    | illegal why =>
      rw [runCommand_illegal hd] at h
      cases h
      exact ⟨[], Nat.zero_le 2, haccept.trans (.of_same rfl rfl rfl)⟩

theorem takePresentStepwise_logs (cw opd : Word32) (s : State) : Logs [] s (takePresentStepwise cw opd s) := by
  cases hb : s.busy with
  | true => rw [takePresentStepwise_busy hb]; exact .refl s
  | false => rw [takePresentStepwise_idle hb]; exact .of_same rfl rfl rfl

/-- An input other than a power loss or a landing reset makes at most two records, which the device's registers
follow; those two make none. -/
theorem takeInput_logs {e : Input} {s t : State} (h : takeInput e s = .next t) :
    (∃ ev, ev.length ≤ 2 ∧ Logs ev s t) ∨ ((e = .powerLoss ∨ e = .reset true) ∧ t.history = s.history) := by
  cases e with
  | present cw opd => exact .inl (takePresent_logs h)
  | presentStepwise cw opd => cases h; exact .inl ⟨[], Nat.zero_le 2, takePresentStepwise_logs cw opd s⟩
  | reset landed =>
    cases h
    cases landed with
    | true => exact .inr ⟨.inr rfl, rfl⟩
    | false => exact .inl ⟨[], Nat.zero_le 2, .of_same rfl (by simp) rfl⟩
  | powerLoss => cases h; exact .inr ⟨.inl rfl, rfl⟩
  | quiet =>
    cases h
    obtain ⟨ev, hlen, hlog⟩ := ownStep_logs s
    exact .inl ⟨ev, hlen.trans one_le_two, hlog⟩

/-- A step makes at most two records, and where it takes no power loss and no landing reset, the device's registers
follow them; it takes the first input. -/
theorem step_logs {s t : State} (h : step s = .next t) :
    (∃ ev, ev.length ≤ 2 ∧ Logs ev { s with inputs := s.inputs.tail } t) ∨
    ((∃ e ∈ s.inputs, e = .powerLoss ∨ e = .reset true) ∧ t.history = s.history) := by
  rcases step_cases h with ⟨hnil, rfl⟩ | ⟨e, rest, hcons, hin⟩
  · obtain ⟨ev, hlen, hlog⟩ := ownStep_logs s
    exact .inl ⟨ev, hlen.trans one_le_two, hlog.history, hlog.device, by rw [hlog.inputs, hnil]; rfl⟩
  · rcases takeInput_logs hin with ⟨ev, hlen, hlog⟩ | ⟨he, hhist⟩
    · exact .inl ⟨ev, hlen, hlog.history, hlog.device, by rw [hlog.inputs, hcons]; rfl⟩
    · exact .inr ⟨⟨e, by simp [hcons], he⟩, hhist⟩

/-! ### A run -/

/-- A run of no step ends where it begins. -/
theorem run_zero {s t : State} (h : Host.Core.run Sys2Proof.core 0 s = .next t) : t = s := by
  cases h
  rfl

/-- Settles O48, by induction on the number of steps: each step's records, replayed, give the device's registers, and
its inputs are some of the earlier ones. -/
theorem deviceIsReplayOfHistory : Obligations.DeviceIsReplayOfHistory := by
  intro n
  induction n with
  | zero =>
    intro s t _ h
    obtain rfl := run_zero h
    exact ⟨[], by simp, rfl⟩
  | succ n ih =>
    intro s t hin h
    obtain ⟨u, hstep, hrun⟩ := run_succ_cases h
    rcases step_logs hstep with ⟨ev, -, hlog⟩ | ⟨⟨e, hmem, he⟩, -⟩
    · have hin' : ∀ e ∈ u.inputs, e ≠ .powerLoss ∧ e ≠ .reset true := by
        intro e hmem
        rw [hlog.inputs] at hmem
        exact hin e (List.mem_of_mem_tail hmem)
      obtain ⟨ev', hhist, hdev⟩ := ih u t hin' hrun
      exact ⟨ev ++ ev', by rw [hhist, hlog.history, List.append_assoc],
        by rw [hdev, hlog.device, List.foldl_append]⟩
    · exact absurd he (not_or.2 (hin e hmem))

/-- Every step appends at most two records, whatever input it takes. -/
theorem step_history {s t : State} (h : step s = .next t) :
    ∃ ev, t.history = s.history ++ ev ∧ ev.length ≤ 2 := by
  rcases step_logs h with ⟨ev, hlen, hlog⟩ | ⟨-, hhist⟩
  · exact ⟨ev, hlog.history, hlen⟩
  · exact ⟨[], by simpa using hhist, Nat.zero_le 2⟩

/-- Settles O60, by induction on the number of steps. -/
theorem historyOnlyGrows : Obligations.HistoryOnlyGrows := by
  intro n
  induction n with
  | zero =>
    intro s t h
    obtain rfl := run_zero h
    exact ⟨[], by simp, le_rfl⟩
  | succ n ih =>
    intro s t h
    obtain ⟨u, hstep, hrun⟩ := run_succ_cases h
    obtain ⟨ev, hhist, hlen⟩ := step_history hstep
    obtain ⟨ev', hhist', hlen'⟩ := ih u t hrun
    refine ⟨ev ++ ev', by rw [hhist', hhist, List.append_assoc], ?_⟩
    rw [List.length_append]
    omega

end Sys2Proof.Machine
end

