-- ==== Sys2Proof/Proofs/MemoryCalls.lean ====
section
/-! PROOFS. One transport call: its bytes (O43), a call with no answer listed (O45), and a call that is never answered
(O46, O47). A command's second call is reduced to its first: `afterRead` is the state the first read leaves, and the
`_afterRead` equations say what the command still has to do from there. -/

namespace Sys2Proof.Machine

open Sys2Proof

/-! ### The byte order of the bus -/

/-- Two bytes that do not overlap add up. -/
theorem readValue_toNat (b₀ b₁ : Byte) : (readValue b₀ b₁).toNat = b₀.toNat + 256 * b₁.toNat := by
  have h₀ : b₀.toNat < 2 ^ 8 := b₀.isLt
  have h₁ : b₁.toNat < 2 ^ 8 := b₁.isLt
  have hor : b₁.toNat <<< 8 ||| b₀.toNat = b₁.toNat <<< 8 + b₀.toNat := (Nat.shiftLeft_add_eq_or_of_lt h₀ _).symm
  have hhigh : b₁.toNat <<< 8 % 2 ^ 16 = b₁.toNat <<< 8 := Nat.mod_eq_of_lt (by rw [Nat.shiftLeft_eq]; omega)
  have hzext : ∀ b : Byte, (b.zeroExtend 16).toNat = b.toNat := fun b => by
    rw [BitVec.toNat_setWidth]
    exact Nat.mod_eq_of_lt (by omega)
  rw [readValue, BitVec.toNat_or, BitVec.toNat_shiftLeft, hzext, hzext, hhigh, Nat.or_comm, hor, Nat.shiftLeft_eq]
  omega

/-- Settles O43: the two bytes of a value, weighed by their places, are the value. -/
theorem busIsLowByteFirst : Obligations.BusIsLowByteFirst := by
  refine ⟨fun _ _ => rfl, readValue_toNat, fun v => BitVec.eq_of_toNat_eq ?_⟩
  have hv : v.toNat < 2 ^ 16 := v.isLt
  rw [readValue_toNat, BitVec.extractLsb'_toNat, BitVec.extractLsb'_toNat, Nat.shiftRight_eq_div_pow,
    Nat.shiftRight_eq_div_pow]
  omega

/-! ### A stuck command -/

/-- Of the ways a command can go, only a call that is never answered leaves EXEC, and the device with it as it was:
a command's only write is its last call. -/
theorem Runs.stuck {allowed : List Status} {ops : Calls} {s t : State} (h : Runs allowed ops s t)
    (hp : t.phase = .exec) :
    t.busy = true ∧ t.inflight.isSome = true ∧ t.rspValid = s.rspValid ∧ t.rspStatus = s.rspStatus ∧
    t.rspResult = s.rspResult ∧ t.device = s.device := by
  induction h with
  | readOk a v ops s t _ ih => exact ih hp
  | readNever | writeNever => exact ⟨rfl, rfl, rfl, rfl, rfl, rfl⟩
  | finish | raise | settle | readErr | writeOk | writeSettle | writeErr => cases hp

/-- With no input, a stuck block is in the same state after any number of steps. -/
theorem run_stuck {t : State} (hp : t.phase = .exec) (hi : t.inflight.isSome = true) (hin : t.inputs = [])
    (n : Nat) : Host.Core.run Sys2Proof.core n t = .next t := by
  have hstep : step t = .next t := by rw [step_of_nil hin, ownStep_stuck hp hi]
  induction n with
  | zero => rfl
  | succ n ih => rw [run_succ_of_next hstep, ih]

/-- Settles O46, by the ways a command can go. -/
theorem stuckCommandStaysStuck : Obligations.StuckCommandStaysStuck := by
  intro i s t h hp
  obtain ⟨hbusy, hcall, hvalid, hstatus, hresult, hdevice⟩ := (runs_of_exec h).stuck hp
  exact ⟨hbusy, hcall, hvalid, hstatus, hresult, hdevice, run_stuck hp hcall⟩

/-! ### After a read that brings a value -/

/-- The state after a read of `a` that brought `v`. -/
def afterRead (a : RegAddr) (v : Reg16) (s : State) : State := record (readEvent a (some v)) (startCall s)

/-- The read has taken one answer. -/
theorem afterRead_answers {s : State} {a : Answer} {rest : List Answer} (h : s.answers = a :: rest) (r : RegAddr)
    (v : Reg16) : (afterRead r v s).answers = rest := by
  simp [afterRead, h]

theorem readReply_of_bringsValue {s : State} {r : RegAddr} {a : Answer} {v : Reg16} {rest : List Answer}
    (h : s.answers = a :: rest) (hv : bringsValue s.device r a v) : readReply r s = .ok v := by
  have hnext : nextAnswer (.read r) s = a := nextAnswer_of_cons h
  rcases hv with rfl | ⟨rfl, rfl⟩
  · exact readReply_ok hnext
  · exact readReply_held hnext

theorem memRead_of_bringsValue {s : State} {r : RegAddr} {a : Answer} {v : Reg16} {rest : List Answer}
    {k : Reg16 → State → State} (h : s.answers = a :: rest) (hv : bringsValue s.device r a v) :
    memRead r s k = k v (afterRead r v s) :=
  memRead_of_ok (readReply_of_bringsValue h hv)

/-- An integration-time code of the table is some integration time. -/
theorem intTimeOf_of_mem {t : BitVec 4} (h : t.toNat ∈ [0, 1, 2, 3, 8, 12]) : ∃ it, intTimeOf t = some it :=
  Option.ne_none_iff_exists'.1 fun hnone => intTimeOf_eq_none.1 hnone h

section AfterRead

variable {s : State} {a : Answer} {v : Reg16} {rest : List Answer}

/-- SET_FIELD after its read: the write, and its end. -/
theorem exec_setField_afterRead {f : Field} {x : Word32} {c : Reg16} (hw : f.writable = true)
    (hc : enc f x = some c) (h : s.answers = a :: rest) (hv : bringsValue s.device (fieldReg f) a v) :
    exec (.setField f x) s = .next (memWrite (fieldReg f) (put f v c) (afterRead (fieldReg f) v s) fun s₁ =>
      (afterFieldWrite f c (put f v c)).run s₁) := by
  rw [exec_setField s hw hc, memRead_of_bringsValue h hv]

/-- READ_LUX after its read of SETTING, which holds a legal integration-time code: the read of AMBIENT_DATA. -/
theorem exec_readLux_afterRead {it : IntTime} (hit : intTimeOf (settingItCode v) = some it)
    (h : s.answers = a :: rest) (hv : bringsValue s.device .setting a v) :
    exec .readLux s = .next (memRead .ambientData (afterRead .setting v s) fun w s₁ =>
      finish (BitVec.ofNat 32 (luxValue hardware w (settingGain v) it)) s₁) := by
  rw [exec_readLux, memRead_of_bringsValue h hv, hit]

/-- SET_THRESH after its read of SETTING, under which the count fits: the write of the count. -/
theorem exec_setThresh_afterRead {sel : Threshold} {lux : Word32} {q : Reg16} (h0 : 0 ≤ lux.toInt)
    (h1 : lux.toInt ≤ 120000)
    (hq : rawOf hardware (signed32 lux) (settingGain v) (settingItCode v) = .ok q)
    (h : s.answers = a :: rest) (hv : bringsValue s.device .setting a v) :
    exec (.setThresh sel lux) s = .next (memWrite (thresholdReg sel) q (afterRead .setting v s) fun s₁ =>
      finish (zext32 q) s₁) := by
  rw [exec_setThresh sel s h0 h1, memRead_of_bringsValue h hv, hq]

end AfterRead

/-! ### A call with no answer listed -/

/-- `s` with other answers to come. -/
def State.withAnswers (answers : List Answer) (s : State) : State := { s with answers := answers }

/-- Starting a call uses up a listed free answer. -/
theorem startCall_withFree {s : State} (h : s.answers = []) (a : Answer) :
    startCall (s.withAnswers [a]) = startCall s := by
  simp [startCall, State.withAnswers, h]

/-- A read with no answer listed is the read with the free answer listed. -/
theorem memRead_free {s : State} (h : s.answers = []) (r : RegAddr) (k : Reg16 → State → State) :
    memRead r s k = memRead r (s.withAnswers [Config.freeAnswer s.callIndex s.history (.read r)]) k := by
  have hreply : readReply r (s.withAnswers [Config.freeAnswer s.callIndex s.history (.read r)]) = readReply r s := by
    rw [readReply, readReply, nextAnswer_of_nil h, nextAnswer_of_cons rfl]
    rfl
  rw [memRead, memRead, callRead, callRead, hreply, startCall_withFree h]

/-- A write with no answer listed is the write with the free answer listed. -/
theorem memWrite_free {s : State} (h : s.answers = []) (r : RegAddr) (v : Reg16) (k : State → State) :
    memWrite r v s k = memWrite r v (s.withAnswers [Config.freeAnswer s.callIndex s.history (.write r v)]) k := by
  have hreply : writeReply r v (s.withAnswers [Config.freeAnswer s.callIndex s.history (.write r v)]) =
      writeReply r v s := by
    rw [writeReply, writeReply, nextAnswer_of_nil h, nextAnswer_of_cons rfl]
  rw [memWrite, memWrite, callWrite, callWrite, hreply, startCall_withFree h]

/-- The same of a read after a read that took the last answer: the free answer is listed after that one. -/
theorem memRead_afterRead_free {s : State} {a : Answer} (h : s.answers = [a]) (r : RegAddr) (v : Reg16) (r' : RegAddr)
    (k : Reg16 → State → State) :
    memRead r' (afterRead r v s) k =
      memRead r' (afterRead r v (s.withAnswers [a, Config.freeAnswer (s.callIndex + 1)
        (s.history ++ [readEvent r (some v)]) (.read r')])) k :=
  memRead_free (afterRead_answers h r v) r' k

/-- The same of a write after a read that took the last answer. -/
theorem memWrite_afterRead_free {s : State} {a : Answer} (h : s.answers = [a]) (r : RegAddr) (v : Reg16) (r' : RegAddr)
    (v' : Reg16) (k : State → State) :
    memWrite r' v' (afterRead r v s) k =
      memWrite r' v' (afterRead r v (s.withAnswers [a, Config.freeAnswer (s.callIndex + 1)
        (s.history ++ [readEvent r (some v)]) (.write r' v')])) k :=
  memWrite_free (afterRead_answers h r v) r' v' k

/-- Settles O45: the first call of each command is a read, to which the free answer may as well be listed; the second
call is the first one of the state after that read. -/
theorem unlistedAnswerIsFree : Obligations.UnlistedAnswerIsFree := by
  refine ⟨fun s h => ⟨fun r => ?_, fun f => ?_, fun f x hw hx => ?_, ?_, fun sel lux h0 h1 => ?_⟩,
    fun s a v h => ⟨fun f x c hw hc hv => ?_, fun hv hit => ?_, fun sel lux q h0 h1 hv hq => ?_⟩⟩
  · rw [exec_readRaw, exec_readRaw, memRead_free h]; rfl
  · rw [exec_getField, exec_getField, memRead_free h]; rfl
  · obtain ⟨c, hc⟩ := Option.ne_none_iff_exists'.1 hx
    rw [exec_setField _ hw hc, exec_setField _ hw hc, memRead_free h]; rfl
  · rw [exec_readLux, exec_readLux, memRead_free h]; rfl
  · rw [exec_setThresh _ _ h0 h1, exec_setThresh _ _ h0 h1, memRead_free h]; rfl
  · rw [exec_setField_afterRead hw hc h hv, memWrite_afterRead_free h]
    exact (exec_setField_afterRead (s := s.withAnswers [a, _]) hw hc rfl hv).symm
  · obtain ⟨it, hit⟩ := intTimeOf_of_mem hit
    rw [exec_readLux_afterRead hit h hv, memRead_afterRead_free h]
    exact (exec_readLux_afterRead (s := s.withAnswers [a, _]) hit rfl hv).symm
  · rw [exec_setThresh_afterRead h0 h1 hq h hv, memWrite_afterRead_free h]
    cases sel <;> exact (exec_setThresh_afterRead (s := s.withAnswers [a, _]) h0 h1 hq rfl hv).symm

/-! ### A call that is never answered -/

/-- A read that is never answered. -/
theorem memRead_silent {s : State} {rest : List Answer} (h : s.answers = .silent :: rest) (r : RegAddr)
    (k : Reg16 → State → State) : memRead r s k = stuckAfter s [] (.read r) := by
  rw [memRead_of_never (readReply_silent (nextAnswer_of_cons h))]
  simp [hang, startCall, stuckAfter]

/-- A write that is never answered. -/
theorem memWrite_silent {s : State} {rest : List Answer} (h : s.answers = .silent :: rest) (r : RegAddr)
    (v : Reg16) (k : State → State) : memWrite r v s k = stuckAfter s [] (.write r v) := by
  rw [memWrite_of_never (writeReply_silent (nextAnswer_of_cons h))]
  simp [hang, startCall, stuckAfter]

/-- Stuck on the first call after a read is stuck after that read's record. -/
theorem stuckAfter_afterRead (s : State) (r : RegAddr) (v : Reg16) (c : BusCall) :
    stuckAfter (afterRead r v s) [] c = stuckAfter s [readEvent r (some v)] c := by
  simp [stuckAfter, afterRead, record, startCall, Nat.add_assoc]

/-- Settles O47: the first call of each command is a read; the second call is the first one of the state after that
read. -/
theorem silentCallSticks : Obligations.SilentCallSticks := by
  refine ⟨fun s rest h => ⟨fun r => ?_, fun f => ?_, fun f x c hw hc => ?_, ?_, fun sel lux h0 h1 => ?_⟩,
    fun s a v rest h => ⟨fun f x c hw hc hv => ?_, fun hv hit => ?_, fun sel lux q h0 h1 hv hq => ?_⟩⟩
  · rw [exec_readRaw, memRead_silent h]
  · rw [exec_getField, memRead_silent h]
  · rw [exec_setField s hw hc, memRead_silent h]
  · rw [exec_readLux, memRead_silent h]
  · rw [exec_setThresh sel s h0 h1, memRead_silent h]
  · rw [exec_setField_afterRead hw hc h hv, memWrite_silent (afterRead_answers h _ _), stuckAfter_afterRead]
    rfl
  · obtain ⟨it, hit⟩ := intTimeOf_of_mem hit
    rw [exec_readLux_afterRead hit h hv, memRead_silent (afterRead_answers h _ _), stuckAfter_afterRead]
    rfl
  · rw [exec_setThresh_afterRead h0 h1 hq h hv, memWrite_silent (afterRead_answers h _ _), stuckAfter_afterRead]
    cases sel <;> rfl

end Sys2Proof.Machine
end

