-- ==== Sys2Proof/Proofs/MemoryFieldReadback.lean ====
section
/-! PROOFS. A field that is set is read back as set (O49). The facts about `put` come bit by bit from one lemma,
`put_getLsbD`; the commands are followed through the device's registers alone. -/

namespace Sys2Proof.Machine

open Sys2Proof

/-! ### A field's code -/

/-- A documented value's code fits its field. -/
theorem enc_le_fieldMask {f : Field} {x : Word32} {c : Reg16} (h : enc f x = some c) : c ≤ fieldMask f :=
  encTable_code_le f _ (enc_mem h)

/-- No two rows of a table have the same code. -/
theorem encTable_code_injective (f : Field) :
    ∀ r ∈ encTable f, ∀ r' ∈ encTable f, r.2 = r'.2 → r = r' := by
  cases f <;> decide

/-- `DEC` undoes `ENC`: the only row with the value's code is the value's (40_register_codec.md R112). -/
theorem dec_of_enc {f : Field} {x : Word32} {c : Reg16} (h : enc f x = some c) : dec f c = some x := by
  have hmem : (x.toNat, c.toNat) ∈ encTable f := enc_mem h
  unfold dec
  cases hfind : (encTable f).find? fun row => row.2 == c.toNat with
  | none => exact absurd (beq_self_eq_true c.toNat) (List.find?_eq_none.1 hfind _ hmem)
  | some row =>
    have hcode : row.2 = c.toNat := by simpa using List.find?_some hfind
    obtain rfl := encTable_code_injective f row (List.mem_of_find?_eq_some hfind) _ hmem hcode
    simp

/-- A code that fits its field has no bit above the field's width. -/
theorem getLsbD_of_le_fieldMask {f : Field} {c : Reg16} (hc : c ≤ fieldMask f) {i : Nat} (hi : fieldWidth f ≤ i) :
    c.getLsbD i = false := by
  have hmask : (fieldMask f).toNat < 2 ^ fieldWidth f := by cases f <;> decide
  have hpow : 2 ^ fieldWidth f ≤ 2 ^ i := Nat.pow_le_pow_right two_pos hi
  exact Nat.testBit_lt_two_pow (lt_of_le_of_lt hc (lt_of_lt_of_le hmask hpow))

/-! ### Bits of a register and of its fields -/

/-- A field's bits are the register's from its shift on. -/
theorem fieldOf_getLsbD (f : Field) (v : Reg16) (i : Nat) :
    (fieldOf f v).getLsbD i = (v.getLsbD (fieldShift f + i) && decide (i < fieldWidth f)) := by
  rw [fieldOf, BitVec.getLsbD_and, BitVec.getLsbD_ushiftRight, fieldMask_getLsbD]

/-- `put` changes the bits of its field, to the code's, and no other (40_register_codec.md R110). -/
theorem put_getLsbD {f : Field} {c : Reg16} (hc : c ≤ fieldMask f) (v : Reg16) {i : Nat} (hi : i < 16) :
    (put f v c).getLsbD i =
      if fieldShift f ≤ i ∧ i < fieldShift f + fieldWidth f then c.getLsbD (i - fieldShift f) else v.getLsbD i := by
  rw [put, BitVec.getLsbD_or, BitVec.getLsbD_and, BitVec.getLsbD_not, placedMask_getLsbD, BitVec.getLsbD_shiftLeft]
  by_cases hin : fieldShift f ≤ i ∧ i < fieldShift f + fieldWidth f
  · simp [hin, hi]
  · have hcode : (!decide (i < fieldShift f) && c.getLsbD (i - fieldShift f)) = false := by
      by_cases hlow : i < fieldShift f
      · simp [hlow]
      · simp [getLsbD_of_le_fieldMask hc (i := i - fieldShift f) (by omega)]
    simp [hin, hi, hcode]

/-- The field reads back as the code put there. -/
theorem fieldOf_put {f : Field} {c : Reg16} (hc : c ≤ fieldMask f) (v : Reg16) : fieldOf f (put f v c) = c := by
  have hend : fieldShift f + fieldWidth f ≤ 16 := by cases f <;> decide
  refine BitVec.eq_of_getLsbD_eq fun i _ => ?_
  rw [fieldOf_getLsbD]
  by_cases hw : i < fieldWidth f
  · rw [put_getLsbD hc v (by omega)]
    simp [hw]
  · simp [hw, getLsbD_of_le_fieldMask hc (Nat.le_of_not_lt hw)]

/-- The bits outside the field stay. -/
theorem put_outside {f : Field} {c : Reg16} (hc : c ≤ fieldMask f) (v : Reg16) :
    put f v c &&& ~~~placedMask f = v &&& ~~~placedMask f := by
  refine BitVec.eq_of_getLsbD_eq fun i hi => ?_
  rw [BitVec.getLsbD_and, BitVec.getLsbD_and, BitVec.getLsbD_not, placedMask_getLsbD, put_getLsbD hc v hi]
  by_cases hin : fieldShift f ≤ i ∧ i < fieldShift f + fieldWidth f <;> simp [hin]

/-- Every other field of the register stays, because its range is disjoint (10_state.md R47). -/
theorem fieldOf_put_other {f g : Field} {c : Reg16} (hc : c ≤ fieldMask f) (hne : g ≠ f)
    (hreg : fieldReg g = fieldReg f) (v : Reg16) : fieldOf g (put f v c) = fieldOf g v := by
  have hdisj := field_ranges_disjoint hne hreg
  have hend : fieldShift g + fieldWidth g ≤ 16 := by cases g <;> decide
  refine BitVec.eq_of_getLsbD_eq fun i _ => ?_
  rw [fieldOf_getLsbD, fieldOf_getLsbD]
  by_cases hw : i < fieldWidth g
  · rw [put_getLsbD hc v (by omega), if_neg (by omega)]
  · simp [hw]

/-! ### The two commands on a device that answers from its registers -/

/-- The last step of SET_FIELD with its settle wait, if it has one, ended: it completes with OK, and the answers and
the device's registers stay. -/
theorem afterSettle_afterFieldWrite (f : Field) (c nv : Reg16) (s : State) :
    ((afterFieldWrite f c nv).run s).afterSettle.rspStatus = 0 ∧
    ((afterFieldWrite f c nv).run s).afterSettle.phase = .idle ∧
    ((afterFieldWrite f c nv).run s).afterSettle.answers = s.answers ∧
    ((afterFieldWrite f c nv).run s).afterSettle.device = s.device := by
  rcases afterFieldWrite_cases f c nv with ⟨-, -, e⟩ | ⟨-, e⟩
  · obtain ⟨hwait, hend⟩ := afterSettle_enterSettle (zext32 nv) s
    rw [e, Program.run_settle, State.afterSettle, hwait, hend]
    exact ⟨rfl, rfl, rfl, rfl⟩
  · rw [e, Program.run_finish, State.afterSettle_idle rfl]
    exact ⟨rfl, rfl, rfl, rfl⟩

/-- A write answered `held` lands. -/
theorem memWrite_held {s : State} {rest : List Answer} (h : s.answers = .held :: rest) (a : RegAddr) (v : Reg16)
    (k : State → State) : memWrite a v s k = k (land a v (record (writeEvent a v true) (startCall s))) :=
  memWrite_of_ok (writeReply_held (nextAnswer_of_cons h))

/-- SET_FIELD with both calls answered from the device's registers stores the read value with the code put in. -/
theorem exec_setField_held {f : Field} {x : Word32} {c : Reg16} {s : State} {rest : List Answer}
    (hw : f.writable = true) (hc : enc f x = some c) (h : s.answers = .held :: .held :: rest) :
    ∃ t, exec (.setField f x) s = .next t ∧ t.afterSettle.rspStatus = 0 ∧ t.afterSettle.phase = .idle ∧
      t.afterSettle.answers = rest ∧
      t.afterSettle.device = deviceWrite s.device (fieldReg f) (put f (deviceRead s.device (fieldReg f)) c) := by
  rw [exec_setField_afterRead hw hc h (.inr ⟨rfl, rfl⟩), memWrite_held (afterRead_answers h _ _)]
  obtain ⟨hstatus, hphase, hanswers, hdevice⟩ := afterSettle_afterFieldWrite f c _ _
  exact ⟨_, rfl, hstatus, hphase, by rw [hanswers]; simp [afterRead, h], hdevice⟩

/-- GET_FIELD answered from the device's registers, whose field holds a documented code, completes with its value and
leaves the device. -/
theorem exec_getField_held {f : Field} {x : Word32} {s : State} {rest : List Answer} (h : s.answers = .held :: rest)
    (hx : dec f (fieldOf f (deviceRead s.device (fieldReg f))) = some x) :
    ∃ u, exec (.getField f) s = .next u ∧ u.rspStatus = 0 ∧ u.rspResult = x ∧ u.device = s.device := by
  have hreport : reportField f (deviceRead s.device (fieldReg f)) = .finish x := by rw [reportField, hx]
  rw [exec_getField, memRead_of_bringsValue h (.inr ⟨rfl, rfl⟩), hreport]
  exact ⟨_, rfl, rfl, rfl, rfl⟩

/-- Settles O49: SET_FIELD leaves the device with the code put into the field's register, which GET_FIELD decodes;
`put` and the write of one register change nothing else. -/
theorem fieldSetIsReadBack : Obligations.FieldSetIsReadBack := by
  intro f x s rest hw hx h
  obtain ⟨c, hc⟩ := Option.ne_none_iff_exists'.1 hx
  have hfits := enc_le_fieldMask hc
  obtain ⟨t, hset, hstatus, hphase, hanswers, hdevice⟩ := exec_setField_held hw hc h
  have hread : deviceRead t.afterSettle.device (fieldReg f) = put f (deviceRead s.device (fieldReg f)) c := by
    rw [hdevice, deviceRead_write_self ((regWritable_fieldReg f).trans hw)]
  have hother : ∀ r : RegAddr, r ≠ fieldReg f → deviceRead t.afterSettle.device r = deviceRead s.device r := by
    intro r hr
    rw [hdevice, deviceRead_write_other hr.symm]
  obtain ⟨u, hget, hok, hresult, hkeep⟩ := exec_getField_held (f := f) (x := x) hanswers
    (by rw [hread, fieldOf_put hfits, dec_of_enc hc])
  refine ⟨t, u, hset, hstatus, hphase, hget, hok, hresult, ?_, ?_, ?_⟩ <;> rw [hkeep]
  · exact hother
  · rw [hread, put_outside hfits]
  · intro g hg
    by_cases hreg : fieldReg g = fieldReg f
    · rw [hreg, hread, fieldOf_put_other hfits hg hreg]
    · rw [hother _ hreg]

end Sys2Proof.Machine
end

