-- ==== Sys2Proof/Proofs/EncodingRoundTrip.lean ====
section
/-! PROOFS. The decoder and the encoder are inverse (O7, O8), and the spec's words (O9). Both directions are one
equivalence, `decode_eq_command_iff`: a pair decodes to a command exactly if the command is well-formed and the pair
carries its fields. -/

namespace Sys2Proof

/-! ### The fields a command's pair carries, by the columns of 30_encoding.md R94 -/

/-- The `sel` of a command (30_encoding.md R85, R94). -/
@[simp] def Instr.sel : Instr → BitVec 4
  | .encodeField f _ => f.id
  | .decodeField f _ => f.id
  | .applyField f _ _ => f.id
  | .rawToLux _ _ _ => 0
  | .luxToRaw _ _ _ => 0
  | .setField f _ => f.id
  | .getField f => f.id
  | .readLux => 0
  | .readRaw a => a.sel
  | .setThresh t _ => t.sel

/-- The `gcode` of a command (30_encoding.md R86). -/
@[simp] def Instr.gcode : Instr → BitVec 2
  | .rawToLux g _ _ => g.code
  | .luxToRaw g _ _ => g.code
  | _ => 0

/-- The `itcode` of a command (30_encoding.md R86). -/
@[simp] def Instr.itcode : Instr → BitVec 4
  | .rawToLux _ t _ => t
  | .luxToRaw _ t _ => t
  | _ => 0

/-- The `OPD` of a command (30_encoding.md R82, R94). -/
@[simp] def Instr.operand : Instr → Word32
  | .encodeField _ x => x
  | .decodeField _ v => v.zeroExtend 32
  | .applyField _ v b => b.zeroExtend 32 <<< 16 ||| v.zeroExtend 32
  | .rawToLux _ _ raw => raw.zeroExtend 32
  | .luxToRaw _ _ lux => lux
  | .setField _ x => x
  | .getField _ => 0
  | .readLux => 0
  | .readRaw _ => 0
  | .setThresh _ lux => lux

/-- The encoder writes these fields. -/
theorem encode_eq (i : Instr) : encode i = (commandWord i.opcode i.sel i.gcode i.itcode, i.operand) := by
  cases i <;> rfl

/-- The pair `(cw, opd)` carries the fields of `i`, and zeros in `CW[31:14]`. -/
structure Instr.CarriedBy (i : Instr) (cw opd : Word32) : Prop where
  op : cwOp cw = i.opcode
  rsv : cwRsv cw = 0
  sel : cwSel cw = i.sel
  gcode : cwGcode cw = i.gcode
  itcode : cwItcode cw = i.itcode
  operand : opd = i.operand

/-! ### A command word is its fields -/

/-- A bit of a command word, by the field it lies in (30_encoding.md R81). -/
theorem commandWord_getLsbD (op sel : BitVec 4) (g : BitVec 2) (t : BitVec 4) (i : Nat) :
    (commandWord op sel g t).getLsbD i =
      if i < 4 then op.getLsbD i
      else if i < 8 then sel.getLsbD (i - 4)
      else if i < 10 then g.getLsbD (i - 8)
      else t.getLsbD (i - 10) := by
  unfold commandWord
  grind

/-- The five fields and the reserved bits are all of a word (30_encoding.md R81). -/
theorem commandWord_fields {cw : Word32} (h : cwRsv cw = 0) :
    commandWord (cwOp cw) (cwSel cw) (cwGcode cw) (cwItcode cw) = cw := by
  refine BitVec.eq_of_getLsbD_eq fun i hi => ?_
  have hrsv : 14 ≤ i → cw.getLsbD i = false := by
    intro hi'
    have hbit : (cwRsv cw).getLsbD (i - 14) = false := by simp [h]
    have hlt : i - 14 < 18 := by omega
    simpa [cwRsv, hlt, hi'] using hbit
  rw [commandWord_getLsbD]
  unfold cwOp cwSel cwGcode cwItcode
  grind

/-- An encoding is exactly a pair that carries the command's fields. -/
theorem encode_eq_iff {i : Instr} {cw opd : Word32} : encode i = (cw, opd) ↔ i.CarriedBy cw opd := by
  rw [encode_eq, Prod.mk.injEq]
  constructor
  · rintro ⟨rfl, rfl⟩
    exact ⟨Laws.cwOp_commandWord .., Laws.cwRsv_commandWord .., Laws.cwSel_commandWord ..,
      Laws.cwGcode_commandWord .., Laws.cwItcode_commandWord .., rfl⟩
  · rintro ⟨hop, hrsv, hsel, hg, ht, rfl⟩
    exact ⟨by rw [← hop, ← hsel, ← hg, ← ht, commandWord_fields hrsv], rfl⟩

/-! ### When a check lets a pair through -/

/-- The shape of every check on a bit range. -/
theorem check_eq_command_iff {c : Prop} [Decidable c] {k : Decoded} {why : Illegal} {i : Instr} :
    (if c then k else .illegal why) = .command i ↔ c ∧ k = .command i := by
  by_cases hc : c <;> simp [hc]

@[simp] theorem checkReserved_eq_command_iff {cw : Word32} {k : Decoded} {i : Instr} :
    checkReserved cw k = .command i ↔ cwRsv cw = 0 ∧ k = .command i :=
  check_eq_command_iff

@[simp] theorem checkNoPair_eq_command_iff {cw : Word32} {k : Decoded} {i : Instr} :
    checkNoPair cw k = .command i ↔ (cwGcode cw = 0 ∧ cwItcode cw = 0) ∧ k = .command i :=
  check_eq_command_iff

@[simp] theorem checkNoSel_eq_command_iff {cw : Word32} {k : Decoded} {i : Instr} :
    checkNoSel cw k = .command i ↔ cwSel cw = 0 ∧ k = .command i :=
  check_eq_command_iff

@[simp] theorem checkHighZero_eq_command_iff {opd : Word32} {k : Decoded} {i : Instr} :
    checkHighZero opd k = .command i ↔ opdHigh opd = 0 ∧ k = .command i :=
  check_eq_command_iff

@[simp] theorem checkNoOperand_eq_command_iff {opd : Word32} {k : Decoded} {i : Instr} :
    checkNoOperand opd k = .command i ↔ opd = 0 ∧ k = .command i :=
  check_eq_command_iff

@[simp] theorem checkSel_eq_command_iff {α : Type} {found : Option α} {k : α → Decoded} {i : Instr} :
    checkSel found k = .command i ↔ ∃ a, found = some a ∧ k a = .command i := by
  cases found <;> simp [checkSel]

/-! ### What a select names -/

@[simp] theorem Field.ofId_eq_some_iff {sel : BitVec 4} {f : Field} : Field.ofId sel = some f ↔ sel = f.id :=
  ⟨fun h => (Laws.Field_id_of_ofId h).symm, fun h => h ▸ Laws.Field_ofId_id f⟩

@[simp] theorem writableField_eq_some_iff {sel : BitVec 4} {f : Field} :
    writableField sel = some f ↔ sel = f.id ∧ f.writable = true := by
  rw [writableField, Option.filter_eq_some_iff, Field.ofId_eq_some_iff]

@[simp] theorem RegAddr.ofSel_eq_some_iff {sel : BitVec 4} {a : RegAddr} : RegAddr.ofSel sel = some a ↔ sel = a.sel :=
  ⟨fun h => (Laws.RegAddr_sel_of_ofSel h).symm, fun h => h ▸ Laws.RegAddr_ofSel_sel a⟩

@[simp] theorem Threshold.ofSel_eq_some_iff {sel : BitVec 4} {t : Threshold} :
    Threshold.ofSel sel = some t ↔ sel = t.sel :=
  ⟨fun h => (Laws.Threshold_sel_of_ofSel h).symm, fun h => h ▸ Laws.Threshold_ofSel_sel t⟩

@[simp] theorem Gain.ofCode_eq_iff {c : BitVec 2} {g : Gain} : Gain.ofCode c = g ↔ c = g.code :=
  ⟨fun h => h ▸ (Laws.Gain_code_ofCode c).symm, fun h => h ▸ Laws.Gain_ofCode_code g⟩

/-! ### The halves of an operand (30_encoding.md R82) -/

/-- Two halves make one operand. -/
theorem operand_eq_halves_iff {opd : Word32} {lo hi : Reg16} :
    opd = hi.zeroExtend 32 <<< 16 ||| lo.zeroExtend 32 ↔ opdLow opd = lo ∧ opdHigh opd = hi := by
  unfold opdLow opdHigh
  constructor
  · rintro rfl
    constructor <;> refine BitVec.eq_of_getLsbD_eq fun i hlt => ?_
    all_goals grind
  · rintro ⟨rfl, rfl⟩
    refine BitVec.eq_of_getLsbD_eq fun i hlt => ?_
    grind

/-- A 16-bit operand is the low half under a zero high half. -/
theorem operand_eq_zeroExtend_iff {opd : Word32} {v : Reg16} :
    opd = v.zeroExtend 32 ↔ opdHigh opd = 0 ∧ opdLow opd = v := by
  have h := operand_eq_halves_iff (opd := opd) (lo := v) (hi := 0)
  simpa [and_comm] using h

/-! ### The round trip -/

/-- A pair that carries the fields of a well-formed command passes each check. -/
theorem decode_of_carriedBy {cw opd : Word32} {i : Instr} (hw : i.wellFormed = true) (h : i.CarriedBy cw opd) :
    decode cw opd = .command i := by
  obtain ⟨hop, hrsv, hsel, hg, ht, hopd⟩ := h
  unfold decode
  cases i with
  | encodeField f x => simp_all [Instr.opcode]
  | decodeField f v =>
    obtain ⟨hhigh, hlow⟩ := operand_eq_zeroExtend_iff.1 hopd
    simp_all [Instr.opcode]
  | applyField f v b =>
    obtain ⟨hlow, hhigh⟩ := operand_eq_halves_iff.1 hopd
    simp_all [Instr.opcode]
  | rawToLux g t raw =>
    obtain ⟨hhigh, hlow⟩ := operand_eq_zeroExtend_iff.1 hopd
    simp_all [Instr.opcode]
  | luxToRaw g t lux => simp_all [Instr.opcode]
  | setField f x => simp_all [Instr.opcode, Instr.wellFormed]
  | getField f => simp_all [Instr.opcode]
  | readLux => simp_all [Instr.opcode]
  | readRaw a => simp_all [Instr.opcode]
  | setThresh t lux => simp_all [Instr.opcode]

/-- A pair that decodes to a command has passed each check, and what the checks let through are the command's
fields. The cases are the opcodes' rows, from 0 to 9. -/
theorem carriedBy_of_decode {cw opd : Word32} {i : Instr} (h : decode cw opd = .command i) :
    i.wellFormed = true ∧ i.CarriedBy cw opd := by
  unfold decode at h
  split at h <;> simp only [checkReserved_eq_command_iff, checkNoPair_eq_command_iff, checkNoSel_eq_command_iff,
    checkHighZero_eq_command_iff, checkNoOperand_eq_command_iff, checkSel_eq_command_iff, Field.ofId_eq_some_iff,
    writableField_eq_some_iff, RegAddr.ofSel_eq_some_iff, Threshold.ofSel_eq_some_iff, Decoded.command.injEq,
    reduceCtorEq] at h
  next hop =>
    obtain ⟨hrsv, ⟨hg, ht⟩, f, hsel, rfl⟩ := h
    exact ⟨rfl, BitVec.eq_of_toNat_eq hop, hrsv, hsel, hg, ht, rfl⟩
  next hop =>
    obtain ⟨hrsv, ⟨hg, ht⟩, f, hsel, hhigh, rfl⟩ := h
    exact ⟨rfl, BitVec.eq_of_toNat_eq hop, hrsv, hsel, hg, ht, operand_eq_zeroExtend_iff.2 ⟨hhigh, rfl⟩⟩
  next hop =>
    obtain ⟨hrsv, ⟨hg, ht⟩, f, hsel, rfl⟩ := h
    exact ⟨rfl, BitVec.eq_of_toNat_eq hop, hrsv, hsel, hg, ht, operand_eq_halves_iff.2 ⟨rfl, rfl⟩⟩
  next hop =>
    obtain ⟨hrsv, hsel, hhigh, rfl⟩ := h
    exact ⟨rfl, BitVec.eq_of_toNat_eq hop, hrsv, hsel, Gain.ofCode_eq_iff.1 rfl, rfl,
      operand_eq_zeroExtend_iff.2 ⟨hhigh, rfl⟩⟩
  next hop =>
    obtain ⟨hrsv, hsel, rfl⟩ := h
    exact ⟨rfl, BitVec.eq_of_toNat_eq hop, hrsv, hsel, Gain.ofCode_eq_iff.1 rfl, rfl, rfl⟩
  next hop =>
    obtain ⟨hrsv, ⟨hg, ht⟩, f, ⟨hsel, hwritable⟩, rfl⟩ := h
    exact ⟨hwritable, BitVec.eq_of_toNat_eq hop, hrsv, hsel, hg, ht, rfl⟩
  next hop =>
    obtain ⟨hrsv, ⟨hg, ht⟩, f, hsel, hopd, rfl⟩ := h
    exact ⟨rfl, BitVec.eq_of_toNat_eq hop, hrsv, hsel, hg, ht, hopd⟩
  next hop =>
    obtain ⟨hrsv, ⟨hg, ht⟩, hsel, hopd, rfl⟩ := h
    exact ⟨rfl, BitVec.eq_of_toNat_eq hop, hrsv, hsel, hg, ht, hopd⟩
  next hop =>
    obtain ⟨hrsv, ⟨hg, ht⟩, a, hsel, hopd, rfl⟩ := h
    exact ⟨rfl, BitVec.eq_of_toNat_eq hop, hrsv, hsel, hg, ht, hopd⟩
  next hop =>
    obtain ⟨hrsv, ⟨hg, ht⟩, t, hsel, rfl⟩ := h
    exact ⟨rfl, BitVec.eq_of_toNat_eq hop, hrsv, hsel, hg, ht, rfl⟩

end Sys2Proof

namespace Sys2Proof.Machine

open Sys2Proof

/-- Settles O7: the encoding of a command carries its fields. -/
theorem decodeOfEncodeIsIdentity : Obligations.DecodeOfEncodeIsIdentity :=
  fun _ hw => decode_of_carriedBy hw (encode_eq_iff.1 rfl)

/-- Settles O8: the fields that the checks let through make up the whole pair. -/
theorem legalPairIsItsCommandsEncoding : Obligations.LegalPairIsItsCommandsEncoding := by
  intro cw opd i h
  obtain ⟨hw, hcarried⟩ := carriedBy_of_decode h
  exact ⟨hw, encode_eq_iff.2 hcarried⟩

/-- Settles O9, by decoding each word. -/
theorem decoderReadsWordsOfTheSpec : Obligations.DecoderReadsWordsOfTheSpec := by
  refine ⟨?words, ?encode, ?decode, ?apply, ?setField, ?getField, ?readRaw, ?regBytes, ?setThresh, ?rawToLux,
    ?luxToRaw⟩
  all_goals decide

end Sys2Proof.Machine
end

