-- ==== Sys2Proof/Proofs/EncodingIllegal.lean ====
section
/-! PROOFS. Which pairs are illegal (O6), and what a block does with one (O5). A pair is illegal exactly if it decodes
to no command, so the conditions under which the checks let a pair through give the listed cases. -/

namespace Sys2Proof

/-- A pair is one or the other (30_encoding.md R88). -/
theorem illegal_iff_no_command (d : Decoded) : (∃ why, d = .illegal why) ↔ ¬∃ i, d = .command i := by
  cases d <;> simp

/-! ### The selects that name something (30_encoding.md R85) -/

@[simp] theorem exists_field_iff {sel : BitVec 4} : (∃ f : Field, sel = f.id) ↔ sel.toNat < 8 := by
  simp only [← Field.ofId_eq_some_iff, ← Option.isSome_iff_exists]
  revert sel
  decide

@[simp] theorem exists_writable_field_iff {sel : BitVec 4} :
    (∃ f : Field, sel = f.id ∧ f.writable = true) ↔ sel.toNat < 7 := by
  simp only [← writableField_eq_some_iff, ← Option.isSome_iff_exists]
  revert sel
  decide

@[simp] theorem exists_regAddr_iff {sel : BitVec 4} : (∃ a : RegAddr, sel = a.sel) ↔ sel.toNat < 7 := by
  simp only [← RegAddr.ofSel_eq_some_iff, ← Option.isSome_iff_exists]
  revert sel
  decide

@[simp] theorem exists_threshold_iff {sel : BitVec 4} : (∃ t : Threshold, sel = t.sel) ↔ sel.toNat < 2 := by
  simp only [← Threshold.ofSel_eq_some_iff, ← Option.isSome_iff_exists]
  revert sel
  decide

/-- `CW[13:8]` is `itcode` above `gcode` (30_encoding.md R81). -/
theorem pairBits_eq_zero_iff {cw : Word32} : cw.extractLsb' 8 6 = 0 ↔ cwGcode cw = 0 ∧ cwItcode cw = 0 := by
  have hcut : cwItcode cw ++ cwGcode cw = cw.extractLsb' 8 6 :=
    (BitVec.extractLsb'_append_extractLsb'_eq_extractLsb' rfl)
  rw [← hcut]
  generalize cwItcode cw = t, cwGcode cw = g
  revert t g
  decide

/-! ### The listed cases -/

/-- The cases of 30_encoding.md R85 to R88, in the decoder's own names for the fields. In each opcode's row the checks,
negated one after the other, are the cases listed for that opcode. -/
theorem illegal_iff_listed {cw opd : Word32} : (∃ why, decode cw opd = .illegal why) ↔
    10 ≤ (cwOp cw).toNat ∨ cwRsv cw ≠ 0 ∨
    ((cwOp cw).toNat ∉ [3, 4] ∧ cw.extractLsb' 8 6 ≠ 0) ∨
    ((cwOp cw).toNat ∈ [0, 1, 2, 6] ∧ 8 ≤ (cwSel cw).toNat) ∨
    ((cwOp cw).toNat ∈ [5, 8] ∧ 7 ≤ (cwSel cw).toNat) ∨
    ((cwOp cw).toNat = 9 ∧ 2 ≤ (cwSel cw).toNat) ∨
    ((cwOp cw).toNat ∈ [3, 4, 7] ∧ cwSel cw ≠ 0) ∨
    ((cwOp cw).toNat ∈ [6, 7, 8] ∧ opd ≠ 0) ∨
    ((cwOp cw).toNat ∈ [1, 3] ∧ opdHigh opd ≠ 0) := by
  rw [illegal_iff_no_command, Ne, Ne, pairBits_eq_zero_iff]
  unfold decode
  split
  case h_11 h0 h1 h2 h3 h4 h5 h6 h7 h8 h9 =>
    have hop : 10 ≤ (cwOp cw).toNat := by
      simp only [imp_false] at *
      omega
    simp [hop]
  all_goals
    next hop => simp [hop, imp_iff_not_or, or_assoc, Nat.succ_le_iff]

end Sys2Proof

namespace Sys2Proof.Machine

open Sys2Proof

/-- Settles O6: the statement writes the bit ranges out. -/
theorem illegalExactlyInTheListedCases : Obligations.IllegalExactlyInTheListedCases :=
  fun _ _ => illegal_iff_listed

/-- A presentation to an idle block runs its command, with the input taken. -/
theorem step_present_idle {s : State} {cw opd : Word32} {rest : List Input}
    (hin : s.inputs = .present cw opd :: rest) (hidle : s.busy = false) :
    step s = runCommand cw opd { s with inputs := rest } :=
  (step_of_cons hin).trans (takePresent_idle hidle)

/-- Settles O5: an idle block accepts the pair and takes the error IllegalCommand, which sets the response. -/
theorem illegalCommandHasNoOtherEffect : Obligations.IllegalCommandHasNoOtherEffect := by
  intro s cw opd rest why hin hidle hill
  rw [step_present_idle hin hidle, runCommand_illegal hill]
  rfl

end Sys2Proof.Machine
end

