-- ==== Sys2Proof/Proofs/CodecTables.lean ====
section
/-! PROOFS. The field tables (O13, O14), the bits `put` changes (O15), and the three commands that are computed from
them without a call (O16 to O19). Everything about `ENC` and `DEC` comes from the rows of `encTable`. -/

namespace Sys2Proof.Machine

open Sys2Proof

/-! ### `ENC` and `DEC` are the rows of one table -/

/-- `ENC` maps a value to a code exactly if the table has that row. -/
theorem enc_eq_some_iff {f : Field} {x : Word32} {c : Reg16} :
    enc f x = some c ↔ (x.toNat, c.toNat) ∈ encTable f :=
  ⟨enc_mem, enc_of_mem⟩

/-- Every value of a table is a 32-bit one. -/
theorem encTable_value_lt (f : Field) : ∀ r ∈ encTable f, r.1 < 2 ^ 32 := by
  cases f <;> decide

/-- What `DEC` answers is a row's value for the row's code. -/
theorem dec_mem {f : Field} {x : Word32} {c : Reg16} (h : dec f c = some x) :
    (x.toNat, c.toNat) ∈ encTable f := by
  obtain ⟨row, hfind, rfl⟩ := Option.map_eq_some_iff.1 h
  have hmem : row ∈ encTable f := List.mem_of_find?_eq_some hfind
  have hcode : row.2 = c.toNat := by simpa using List.find?_some hfind
  have hvalue : (BitVec.ofNat 32 row.1).toNat = row.1 := by
    rw [BitVec.toNat_ofNat, Nat.mod_eq_of_lt (encTable_value_lt f row hmem)]
  rwa [hvalue, ← hcode]

/-- `DEC` is the inverse of `ENC` (40_register_codec.md R112). -/
theorem dec_eq_some_iff {f : Field} {x : Word32} {c : Reg16} : dec f c = some x ↔ enc f x = some c :=
  ⟨fun h => enc_of_mem (dec_mem h), dec_of_enc⟩

/-- The codes of a field's width that no row has (40_register_codec.md R112). -/
theorem no_row_iff_reserved (f : Field) : ∀ n ≤ (fieldMask f).toNat,
    ((∀ r ∈ encTable f, r.2 ≠ n) ↔
      (f = .it ∧ n ∈ [4, 5, 6, 7, 9, 10, 11, 13, 14, 15]) ∨ (f = .intStatus ∧ n = 3)) := by
  cases f <;> decide

/-- Settles O13: the listed pairs are the rows of the tables, as numbers. -/
theorem encodeTableIsStated : Obligations.EncodeTableIsStated := by
  intro x c
  refine ⟨?gain, ?it, ?pers, ?intEn, ?sd, ?psmEn, ?psmMode, ?intStatus⟩
  all_goals simp [enc_eq_some_iff, encTable, ← BitVec.toNat_inj]

/-- Settles O14: `DEC` answers the rows of `ENC`, and a reserved code is one that no row has. -/
theorem decodeTableInvertsEncodeTable : Obligations.DecodeTableInvertsEncodeTable := by
  refine ⟨fun _ _ _ => dec_eq_some_iff, fun f c hc => ?_⟩
  have hthree : c = 3 ↔ c.toNat = 3 := by rw [← BitVec.toNat_inj]; rfl
  rw [dec_eq_none, hthree]
  exact no_row_iff_reserved f c.toNat hc

/-- Settles O15, from what each bit of `put` is. -/
theorem putChangesOnlyItsField : Obligations.PutChangesOnlyItsField :=
  fun _ v _ hb => ⟨put_outside hb v, fieldOf_put hb v, fun _ hne hreg => fieldOf_put_other hb hne hreg v⟩

/-! ### Each end of the commands without a call -/

/-- ENCODE of a documented value (40_register_codec.md R113). -/
theorem exec_encodeField_documented {f : Field} {x : Word32} {c : Reg16} (h : enc f x = some c) (s : State) :
    exec (.encodeField f x) s = .next (finish (zext32 c) s) := by
  rw [exec_encodeField, h]

/-- ENCODE of an undocumented value (40_register_codec.md R113). -/
theorem exec_encodeField_undocumented {f : Field} {x : Word32} (h : enc f x = none) (s : State) :
    exec (.encodeField f x) s = .next (raise .invalidSetting s) := by
  rw [exec_encodeField, h]

theorem reportField_documented {f : Field} {v : Reg16} {x : Word32} (h : dec f (fieldOf f v) = some x) :
    reportField f v = .finish x := by
  rw [reportField, h]

theorem reportField_reserved {f : Field} {v : Reg16} (h : dec f (fieldOf f v) = none) :
    reportField f v = .raise .unknownFieldValue := by
  rw [reportField, h]

/-- DECODE of a documented code (40_register_codec.md R114). -/
theorem exec_decodeField_documented {f : Field} {v : Reg16} {x : Word32} (h : dec f (fieldOf f v) = some x)
    (s : State) : exec (.decodeField f v) s = .next (finish x s) := by
  rw [exec_decodeField, reportField_documented h, Program.run_finish]

/-- DECODE of a reserved code (40_register_codec.md R114). -/
theorem exec_decodeField_reserved {f : Field} {v : Reg16} (h : dec f (fieldOf f v) = none) (s : State) :
    exec (.decodeField f v) s = .next (raise .unknownFieldValue s) := by
  rw [exec_decodeField, reportField_reserved h, Program.run_raise]

/-- APPLY of a code that fits its field (40_register_codec.md R115). -/
theorem exec_applyField_fits {f : Field} {b : Reg16} (h : b ≤ fieldMask f) (v : Reg16) (s : State) :
    exec (.applyField f v b) s = .next (finish (zext32 (put f v b)) s) := by
  rw [exec_applyField, if_pos h]

/-- APPLY of a wider code (40_register_codec.md R115). -/
theorem exec_applyField_wider {f : Field} {b : Reg16} (h : fieldMask f < b) (v : Reg16) (s : State) :
    exec (.applyField f v b) s = .next (raise .invalidSetting s) := by
  rw [exec_applyField, if_neg (BitVec.not_le.2 h)]

/-- Settles O16, by whether the table has the value; a code it has fits the field. -/
theorem encodeCommandResult : Obligations.EncodeCommandResult :=
  fun _ _ s => ⟨fun _ h => ⟨enc_le_fieldMask h, exec_encodeField_documented h s⟩,
    fun h => exec_encodeField_undocumented h s⟩

/-- Settles O17: the statement writes `fieldOf` out. -/
theorem decodeCommandResult : Obligations.DecodeCommandResult :=
  fun _ _ s => ⟨fun _ h => exec_decodeField_documented h s, fun h => exec_decodeField_reserved h s⟩

/-- Settles O18: the statement writes `put` out. -/
theorem applyCommandResult : Obligations.ApplyCommandResult :=
  fun _ v _ s => ⟨fun h => exec_applyField_fits h v s, fun h => exec_applyField_wider h v s⟩

/-! ### The round trip -/

/-- A register value is the low half of its zero-extended result. -/
theorem extractLsb'_zext32 (v : Reg16) : (zext32 v).extractLsb' 0 16 = v := by
  have h := operand_eq_zeroExtend_iff (opd := zext32 v) (v := v)
  exact (h.1 rfl).2

/-- Settles O19: the code ENCODE reports fits, so APPLY puts it in, the field reads back as that code, and DECODE
gives the value it is the code of. -/
theorem codecRoundTrip : Obligations.CodecRoundTrip := by
  refine ⟨fun _ _ _ => dec_of_enc, fun _ _ _ => dec_eq_some_iff.1, fun f x v s hx => ?_⟩
  obtain ⟨c, hc⟩ := Option.ne_none_iff_exists'.1 hx
  have hfits : c ≤ fieldMask f := enc_le_fieldMask hc
  have happly : ∀ t, exec (.applyField f v ((zext32 c).extractLsb' 0 16)) t =
      .next (finish (zext32 (put f v c)) t) := by
    rw [extractLsb'_zext32]
    exact exec_applyField_fits hfits v
  have hback : dec f (fieldOf f (put f v c)) = some x := by rw [fieldOf_put hfits, dec_of_enc hc]
  have hdecode : ∀ t, exec (.decodeField f ((zext32 (put f v c)).extractLsb' 0 16)) t = .next (finish x t) := by
    rw [extractLsb'_zext32]
    exact exec_decodeField_documented hback
  exact ⟨_, _, _, exec_encodeField_documented hc s, rfl, happly _, rfl, hdecode _, rfl, rfl⟩

end Sys2Proof.Machine
end

