-- ==== Sys2Proof/Proofs/CodecTransport.lean ====
section
/-! PROOFS. The codec commands that use the transport (O20 to O25). `completedAfter` absorbs a command's records one
by one: an end completes after no record, and a call before it puts its record in front. -/

namespace Sys2Proof.Machine

open Sys2Proof

/-! ### Completion after a list of records -/

theorem finish_eq_completedAfter (r : Word32) (s : State) : finish r s = completedAfter s [] 0 r := by
  simp [finish, completedAfter, Status.code]

theorem raise_eq_completedAfter (st : Status) (s : State) : raise st s = completedAfter s [] st.code 0 := by
  simp [raise, completedAfter]

/-- An answered call before a completion puts its record first. -/
theorem completedAfter_call (e : Event) (s : State) (ev : List Event) (code : BitVec 3) (r : Word32) :
    completedAfter (record e (startCall s)) ev code r = completedAfter s (e :: ev) code r := by
  simp [completedAfter, record, startCall, Nat.add_comm, Nat.add_left_comm]

/-- The same of a read that brought a value. -/
theorem completedAfter_afterRead (a : RegAddr) (v : Reg16) (s : State) (ev : List Event) (code : BitVec 3)
    (r : Word32) :
    completedAfter (afterRead a v s) ev code r = completedAfter s (readEvent a (some v) :: ev) code r :=
  completedAfter_call _ s ev code r

/-! ### Calls with an answer listed -/

/-- The state after a write of `v` to `a` that was answered `Ok`. -/
def afterWrite (a : RegAddr) (v : Reg16) (s : State) : State :=
  land a v (record (writeEvent a v true) (startCall s))

/-- A landed write before a completion also stores its value. -/
theorem completedAfter_afterWrite (a : RegAddr) (v : Reg16) (s : State) (ev : List Event) (code : BitVec 3)
    (r : Word32) :
    completedAfter (afterWrite a v s) ev code r =
      { completedAfter s (writeEvent a v true :: ev) code r with device := deviceWrite s.device a v } := by
  rw [← completedAfter_call]
  rfl

section Calls

variable {s : State} {a : Answer} {rest : List Answer}

theorem memWrite_of_acceptsWrite (h : s.answers = a :: rest) (ha : acceptsWrite a) (r : RegAddr) (v : Reg16)
    (k : State → State) : memWrite r v s k = k (afterWrite r v s) := by
  have hnext : nextAnswer (.write r v) s = a := nextAnswer_of_cons h
  rcases ha with rfl | ⟨w, rfl⟩
  · exact memWrite_of_ok (writeReply_held hnext)
  · exact memWrite_of_ok (writeReply_ok hnext)

/-- A failed read ends its command (00_scope.md R12). -/
theorem memRead_failed (h : s.answers = .err :: rest) (r : RegAddr) (k : Reg16 → State → State) :
    memRead r s k = completedAfter s [readEvent r none] 5 0 := by
  rw [memRead_of_err (readReply_err (nextAnswer_of_cons h)), raise_eq_completedAfter, completedAfter_call]
  rfl

/-- A failed write ends its command (00_scope.md R12). -/
theorem memWrite_failed (h : s.answers = .err :: rest) (r : RegAddr) (v : Reg16) (k : State → State) :
    memWrite r v s k = completedAfter s [writeEvent r v false] 5 0 := by
  rw [memWrite_of_err (writeReply_err (nextAnswer_of_cons h)), raise_eq_completedAfter, completedAfter_call]
  rfl

end Calls

/-! ### SET_FIELD -/

/-- SET_FIELD of a documented value with both calls answered `Ok`, up to its end. -/
theorem exec_setField_afterWrite {f : Field} {x : Word32} {c v : Reg16} {s : State} {a₁ a₂ : Answer}
    {rest : List Answer} (hw : f.writable = true) (hc : enc f x = some c) (h : s.answers = a₁ :: a₂ :: rest)
    (hv : bringsValue s.device (fieldReg f) a₁ v) (ha : acceptsWrite a₂) :
    exec (.setField f x) s = .next ((afterFieldWrite f c (put f v c)).run
      (afterWrite (fieldReg f) (put f v c) (afterRead (fieldReg f) v s))) := by
  rw [exec_setField_afterRead hw hc h hv, memWrite_of_acceptsWrite (afterRead_answers h _ _) ha]

/-- Only the power-on write enters the settle wait (70_reset_and_hazards.md R240, R241). -/
theorem afterFieldWrite_of_not_powerOn {f : Field} {c : Reg16} (h : ¬(f = .sd ∧ c = 0)) (nv : Reg16) :
    afterFieldWrite f c nv = .finish (zext32 nv) :=
  if_neg h

theorem afterFieldWrite_powerOn (nv : Reg16) : afterFieldWrite .sd 0 nv = .settle (zext32 nv) := rfl

/-- Settles O20: the completion absorbs the write and then the read. -/
theorem setFieldCompletes : Obligations.SetFieldCompletes := by
  intro f x c v s a₁ a₂ rest hw hc hpower h hv ha
  rw [exec_setField_afterWrite hw hc h hv ha, afterFieldWrite_of_not_powerOn hpower, Program.run_finish,
    finish_eq_completedAfter, completedAfter_afterWrite, completedAfter_afterRead]
  rfl

/-- With no input, the two steps after the entry into the settle wait are the wait and the completion. -/
theorem step_enterSettle {s : State} (h : s.inputs = []) (r : Word32) :
    step (enterSettle r s) = .next (waitSettle (enterSettle r s)) ∧
    step (waitSettle (enterSettle r s)) = .next (endSettle (waitSettle (enterSettle r s))) := by
  obtain ⟨hwait, hend⟩ := afterSettle_enterSettle r s
  constructor
  · rw [step_of_nil (by simpa using h), hwait]
  · rw [step_of_nil (by simpa using h), hend]

/-- Settles O21: the power-on write ends in `enterSettle`, and the block's next two own steps are the wait and the
completion. -/
theorem powerOnWriteSettlesThenCompletes : Obligations.PowerOnWriteSettlesThenCompletes := by
  intro v s a₁ a₂ rest h hv ha
  have hcode : enc .sd 0 = some 0 := rfl
  have hexec : exec (.setField .sd 0) s = .next (enterSettle (zext32 (put .sd v 0))
      (afterWrite .setting (put .sd v 0) (afterRead .setting v s))) :=
    exec_setField_afterWrite rfl hcode h hv ha
  refine ⟨_, hexec, ?_, ?_, ?_, ?_, ?_, ?_, ?_, ?_, ?_, ?_, ?history, ?answers, ?_, ?_, ?_, ?settle⟩
  case history => exact List.append_assoc s.history _ _
  case answers => simp [afterWrite, afterRead, h]
  case settle =>
    intro hin
    obtain ⟨hwait, hend⟩ := step_enterSettle (s := afterWrite .setting (put .sd v 0) (afterRead .setting v s))
      (by simpa [afterWrite, afterRead] using hin) (zext32 (put .sd v 0))
    exact ⟨_, hwait, rfl, hend⟩
  all_goals simp [afterWrite, afterRead]

/-- SET_FIELD of the read-only field, by the check before any call (30_encoding.md R85). -/
theorem exec_setField_readOnly {f : Field} (hw : f.writable = false) (x : Word32) (s : State) :
    exec (.setField f x) s = .next (raise .illegalCommand s) := by
  have hreg : ¬regWritable (fieldReg f) = true := by rw [regWritable_fieldReg, hw]; exact Bool.false_ne_true
  show Host.Outcome.next ((setFieldProgram f x).run s) = _
  rw [setFieldProgram, if_neg hreg, Program.run_raise]

/-- Settles O22: each of the two checks raises before the first call. -/
theorem setFieldRejectsBeforeAnyCall : Obligations.SetFieldRejectsBeforeAnyCall := by
  refine ⟨fun f x s hw hx => ?_, fun x s => ?_⟩
  · rw [exec_setField_undocumented s hw hx, raise_eq_completedAfter]
    rfl
  · rw [exec_setField_readOnly rfl, raise_eq_completedAfter]
    rfl

/-- Settles O23: a failed call completes, and the completion absorbs the read before it. -/
theorem setFieldBusErrorLeavesDevice : Obligations.SetFieldBusErrorLeavesDevice := by
  refine fun f x c s hw hc => ⟨fun rest h => ?_, fun a₁ v rest h hv => ?_⟩
  · rw [exec_setField s hw hc, memRead_failed h]
    rfl
  · rw [exec_setField_afterRead hw hc h hv, memWrite_failed (afterRead_answers h _ _), completedAfter_afterRead]
    rfl

/-! ### GET_FIELD and READ_RAW -/

/-- Settles O24: the completion, by whether the code read is reserved, absorbs the one read. -/
theorem getFieldResult : Obligations.GetFieldResult := by
  refine fun f s a rest h => ⟨fun v x hv hx => ?_, fun v hv hx => ?_, ?_⟩
  · rw [exec_getField, memRead_of_bringsValue h hv, reportField_documented hx, Program.run_finish,
      finish_eq_completedAfter, completedAfter_afterRead]
    rfl
  · rw [exec_getField, memRead_of_bringsValue h hv, reportField_reserved hx, Program.run_raise,
      raise_eq_completedAfter, completedAfter_afterRead]
    rfl
  · rintro rfl
    rw [exec_getField, memRead_failed h]
    rfl

/-- Settles O25: the completion absorbs the one read. -/
theorem readRawResult : Obligations.ReadRawResult := by
  refine fun r s a rest h => ⟨fun v hv => ?_, ?_⟩
  · rw [exec_readRaw, memRead_of_bringsValue h hv, finish_eq_completedAfter, completedAfter_afterRead]
    rfl
  · rintro rfl
    rw [exec_readRaw, memRead_failed h]
    rfl

end Sys2Proof.Machine
end

