-- ==== Sys2Proof/Proofs/LuxArithmetic.lean ====
section
/-! PROOFS. The arithmetic of the lux engine: its ranges (O31), its monotonicity (O32) and its knee (O33). The lux is a
function of the uncompensated lux alone, and everything about the compensation comes from one fact: the numerator of the
polynomial grows by more than its denominator from each integer to the next. -/

namespace Sys2Proof.Machine

open Sys2Proof

/-! ### The compensation polynomial (41_lux_engine.md R143) -/

/-- The numerator grows by more than the denominator: what is left of the difference is positive, because its quadratic
factor has no real root. -/
theorem compNumerator_succ (l : Nat) : compNumerator l + 10 ^ 17 < compNumerator (l + 1 : Nat) := by
  have hquadratic : (0 : Int) ≤ 240540 * (l : Int) ^ 2 - 2817359190 * l + 16294782520540 := by
    linarith only [sq_nonneg (481080 * (l : Int) - 2817359190)]
  have hcubic := mul_nonneg (Int.natCast_nonneg l) hquadratic
  have hdifference : compNumerator (l + 1 : Nat) - compNumerator l - 10 ^ 17 =
      l * (240540 * (l : Int) ^ 2 - 2817359190 * l + 16294782520540) + 238147860820135 := by
    simp only [compNumerator]
    push_cast
    ring
  linarith only [hcubic, hdifference]

theorem compNumerator_strictMono : StrictMono fun l : Nat => compNumerator l :=
  strictMono_nat_of_lt_succ fun l => by linarith only [compNumerator_succ l]

theorem compNumerator_nonneg (l : Nat) : 0 ≤ compNumerator l := by
  have hzero : compNumerator (0 : Nat) = 0 := by decide
  exact hzero ▸ compNumerator_strictMono.monotone l.zero_le

theorem comp_strictMono : StrictMono comp :=
  strictMono_nat_of_lt_succ fun l => by
    have hstep := compNumerator_succ l
    have hnonneg := compNumerator_nonneg l
    unfold comp
    omega

/-! ### Its values at the knee and at the greatest uncompensated lux -/

theorem comp_1000 : comp 1000 = 1074 := by decide

theorem comp_1001 : comp 1001 = 1076 := by decide

theorem comp_120794 : comp 120794 = 112784830 := by decide

/-! ### The lux as a function of the uncompensated lux (41_lux_engine.md R144) -/

/-- The lux of an uncompensated lux, at this hardware's knee. -/
def kneeLuxOf (l : Nat) : Nat := if 1000 < l then comp l else l

theorem luxValue_eq_kneeLuxOf (raw : Reg16) (g : Gain) (t : IntTime) :
    luxValue hardware raw g t = kneeLuxOf (linearLux hardware raw g t) := rfl

theorem kneeLuxOf_of_le {l : Nat} (h : l ≤ 1000) : kneeLuxOf l = l := if_neg h.not_gt

theorem kneeLuxOf_of_gt {l : Nat} (h : 1000 < l) : kneeLuxOf l = comp l := if_pos h

/-- Above the knee the lux starts at 1076. -/
theorem le_kneeLuxOf_of_gt {l : Nat} (h : 1000 < l) : 1076 ≤ kneeLuxOf l := by
  rw [kneeLuxOf_of_gt h, ← comp_1001]
  exact comp_strictMono.monotone h

theorem kneeLuxOf_monotone : Monotone kneeLuxOf := by
  intro l l' hle
  rcases Nat.lt_or_ge 1000 l with hl | hl
  · rw [kneeLuxOf_of_gt hl, kneeLuxOf_of_gt (hl.trans_le hle)]
    exact comp_strictMono.monotone hle
  · rw [kneeLuxOf_of_le hl]
    rcases Nat.lt_or_ge 1000 l' with hl' | hl'
    · have := le_kneeLuxOf_of_gt hl'
      omega
    · rwa [kneeLuxOf_of_le hl']

/-! ### The uncompensated lux (41_lux_engine.md R142) -/

theorem linearLux_mono {raw raw' : Reg16} (h : raw ≤ raw') (g : Gain) (t : IntTime) :
    linearLux hardware raw g t ≤ linearLux hardware raw' g t :=
  Nat.div_le_div_right (Nat.mul_le_mul_right _ h)

/-- The greatest count under the greatest resolution is the greatest uncompensated lux. -/
theorem linearLux_le (raw : Reg16) (g : Gain) (t : IntTime) : linearLux hardware raw g t ≤ 120794 :=
  calc raw.toNat * resolution g t / 10000
    _ ≤ 65535 * 18432 / 10000 :=
      Nat.div_le_div_right (Nat.mul_le_mul (Nat.le_of_lt_succ raw.isLt) (resolution_bounds g t).2)

theorem luxValue_le (raw : Reg16) (g : Gain) (t : IntTime) : luxValue hardware raw g t ≤ 112784830 :=
  calc kneeLuxOf (linearLux hardware raw g t)
    _ ≤ kneeLuxOf 120794 := kneeLuxOf_monotone (linearLux_le raw g t)
    _ = 112784830 := comp_120794

/-! ### The statements -/

/-- Settles O31: both bounds are monotonicity up to 120794, and so is the one of the numerator. -/
theorem luxStaysInRange : Obligations.LuxStaysInRange := by
  have hmax : linearLux hardware 0xFFFF .g1_8 .it25 = 120794 := by decide
  have htop : compNumerator (120794 : Nat) < 2 ^ 84 := by decide
  refine ⟨fun raw g t => ⟨linearLux_le raw g t, luxValue_le raw g t⟩, hmax, ?_, comp_120794, by decide, fun l hl =>
    ⟨compNumerator_nonneg l, (compNumerator_strictMono.monotone hl).trans_lt htop⟩⟩
  rw [luxValue_eq_kneeLuxOf, hmax, kneeLuxOf_of_gt (by decide), comp_120794]

/-- Settles O32: the lux is a monotone function of the monotone uncompensated lux. -/
theorem luxIsMonotone : Obligations.LuxIsMonotone :=
  ⟨fun _ _ g t h => ⟨kneeLuxOf_monotone (linearLux_mono h g t), linearLux_mono h g t⟩,
    fun _ _ _ hlt => comp_strictMono hlt, comp_1001⟩

/-- Settles O33: the lux is at most 1000 up to the knee and at least 1076 above it. -/
theorem kneeLeavesGap : Obligations.KneeLeavesGap := by
  refine ⟨fun raw g t h => ?_, fun raw g t h => ?_, fun raw g t => ?_, comp_1000⟩
  all_goals rw [luxValue_eq_kneeLuxOf]
  · rw [h, kneeLuxOf_of_le le_rfl]
  · rw [h, kneeLuxOf_of_gt (by decide), comp_1001]
  · rcases Nat.lt_or_ge 1000 (linearLux hardware raw g t) with hl | hl
    · have := le_kneeLuxOf_of_gt hl
      omega
    · rw [kneeLuxOf_of_le hl]
      omega

end Sys2Proof.Machine
end

