-- ==== Sys2Proof/Proofs/LuxCommands.lean ====
section
/-! PROOFS. The resolution table (O26), the lux function written out (O27), RAW2LUX (O28, O34) and READ_LUX (O29, O30).
`luxOf` succeeds exactly under a legal integration-time code, and then is `luxValue`. -/

namespace Sys2Proof.Machine

open Sys2Proof

/-! ### The tables by raw code -/

/-- The resolution by raw codes, each code with its exponent (41_lux_engine.md R141). -/
theorem resolution_of_codes :
    ∀ row ∈ [((1 : BitVec 2), 0), (0, 1), (3, 3), (2, 4)],
      ∀ col ∈ [((3 : BitVec 4), 0), (2, 1), (1, 2), (0, 3), (8, 4), (12, 5)],
        (intTimeOf col.1).map (resolution (Gain.ofCode row.1)) = some (36 * 2 ^ (row.2 + col.2)) := by
  decide

/-- The gain of a code, by the rows of 10_state.md R32. -/
theorem gain_ofCode_of_row {c : BitVec 2} {g : Gain}
    (h : (c.toNat, g) ∈ [(0, Gain.g1), (1, .g2), (2, .g1_8), (3, .g1_4)]) : Gain.ofCode c = g := by
  revert c
  cases g <;> decide

/-- The integration time of a code, by the rows of 10_state.md R33. -/
theorem intTimeOf_of_row {t : BitVec 4} {it : IntTime}
    (h : (t.toNat, it) ∈
      [(0, IntTime.it100), (1, .it200), (2, .it400), (3, .it800), (8, .it50), (12, .it25)]) :
    intTimeOf t = some it := by
  revert t
  cases it <;> decide

/-- Settles O26: by gain and time the entries are the definition's, and by raw code those of `resolution_of_codes`. -/
theorem resolutionTableIsStated : Obligations.ResolutionTableIsStated := by
  refine ⟨fun g t => ?_, rfl, rfl, fun gc tc gs ts hg ht => ?_, by decide, by decide⟩
  · cases g <;> cases t <;> rfl
  · exact Option.map_eq_some_iff.1 (resolution_of_codes (gc, gs) hg (tc, ts) ht)

/-! ### When `luxOf` succeeds (41_lux_engine.md R144) -/

theorem luxOf_legal {p : Params} {t : BitVec 4} {it : IntTime} (h : intTimeOf t = some it) (raw : Reg16) (g : Gain) :
    luxOf p raw g t = .ok (luxValue p raw g it) := by
  rw [luxOf, h]

theorem luxOf_reserved {p : Params} {t : BitVec 4} (h : t.toNat ∉ [0, 1, 2, 3, 8, 12]) (raw : Reg16) (g : Gain) :
    luxOf p raw g t = .error .unsupportedConfiguration := by
  rw [luxOf, intTimeOf_eq_none.2 h]

/-- A lux comes from a legal integration-time code. -/
theorem luxOf_ok {p : Params} {raw : Reg16} {g : Gain} {t : BitVec 4} {lux : Nat} (h : luxOf p raw g t = .ok lux) :
    ∃ it, intTimeOf t = some it ∧ luxValue p raw g it = lux := by
  unfold luxOf at h
  split at h
  case h_1 it hit => exact ⟨it, hit, Except.ok.inj h⟩
  case h_2 => cases h

/-- Settles O27: by the code's row, `luxOf` is `luxValue`, whose definition the statement writes out. -/
theorem luxFunctionIsStated : Obligations.LuxFunctionIsStated := by
  refine fun raw gc t => ⟨fun ht => luxOf_reserved ht raw _, fun g it hg ht => ?_⟩
  rw [luxOf_legal (intTimeOf_of_row ht), gain_ofCode_of_row hg]
  rfl

/-! ### RAW2LUX -/

theorem exec_rawToLux_ok {g : Gain} {t : BitVec 4} {raw : Reg16} {lux : Nat} (h : luxOf hardware raw g t = .ok lux)
    (s : State) : exec (.rawToLux g t raw) s = .next (finish (BitVec.ofNat 32 lux) s) := by
  rw [exec_rawToLux, h]

theorem exec_rawToLux_reserved {t : BitVec 4} (h : t.toNat ∉ [0, 1, 2, 3, 8, 12]) (g : Gain) (raw : Reg16)
    (s : State) : exec (.rawToLux g t raw) s = .next (raise .unsupportedConfiguration s) := by
  rw [exec_rawToLux, luxOf_reserved h]

/-- Settles O28: the bound is the one of O31. -/
theorem rawToLuxResult : Obligations.RawToLuxResult := by
  refine fun g t raw s => ⟨fun lux h => ⟨?_, exec_rawToLux_ok h s⟩, fun h => exec_rawToLux_reserved h g raw s⟩
  obtain ⟨it, -, rfl⟩ := luxOf_ok h
  exact luxValue_le raw g it

theorem luxValue_zero (g : Gain) (t : IntTime) : luxValue hardware 0 g t = 0 := by
  have hlinear : linearLux hardware 0 g t = 0 := by simp [linearLux]
  rw [luxValue_eq_kneeLuxOf, hlinear, kneeLuxOf_of_le (by decide)]

/-- Settles O34: under a legal code RAW2LUX completes with the lux of a count of 0. -/
theorem zeroCountIsZeroLux : Obligations.ZeroCountIsZeroLux := by
  refine ⟨luxValue_zero, fun g t s ht => ?_⟩
  obtain ⟨it, hit⟩ := intTimeOf_of_mem ht
  have hlux : luxOf hardware 0 g t = .ok 0 := by rw [luxOf_legal hit, luxValue_zero]
  exact ⟨_, exec_rawToLux_ok hlux s, rfl, rfl⟩

/-! ### READ_LUX -/

/-- Settles O29: the completion absorbs the read of AMBIENT_DATA and then the one of SETTING. -/
theorem readLuxCompletes : Obligations.ReadLuxCompletes := by
  intro s a₁ a₂ rest v raw lux h hv hraw hlux
  obtain ⟨it, hit, rfl⟩ := luxOf_ok hlux
  rw [exec_readLux_afterRead hit h hv, memRead_of_bringsValue (afterRead_answers h _ _) hraw,
    finish_eq_completedAfter, completedAfter_afterRead, completedAfter_afterRead]
  rfl

/-- READ_LUX under a reserved integration-time code ends after its read of SETTING (41_lux_engine.md R146). -/
theorem exec_readLux_reserved {s : State} {a : Answer} {v : Reg16} {rest : List Answer} (h : s.answers = a :: rest)
    (hv : bringsValue s.device .setting a v) (ht : (settingItCode v).toNat ∉ [0, 1, 2, 3, 8, 12]) :
    exec .readLux s = .next (raise .unsupportedConfiguration (afterRead .setting v s)) := by
  rw [exec_readLux, memRead_of_bringsValue h hv, intTimeOf_eq_none.2 ht]

/-- Settles O30: each error completes, and the completion absorbs the read of SETTING where it brought a value. -/
theorem readLuxErrors : Obligations.ReadLuxErrors := by
  refine fun s => ⟨fun a₁ v rest h hv ht => ?reserved, fun rest h => ?firstRead, fun a₁ v rest h hv ht => ?secondRead⟩
  case reserved =>
    rw [exec_readLux_reserved h hv ht, raise_eq_completedAfter, completedAfter_afterRead]
    rfl
  case firstRead =>
    rw [exec_readLux, memRead_failed h]
    rfl
  case secondRead =>
    obtain ⟨it, hit⟩ := intTimeOf_of_mem ht
    rw [exec_readLux_afterRead hit h hv, memRead_failed (afterRead_answers h _ _), completedAfter_afterRead]
    rfl

end Sys2Proof.Machine
end

