-- ==== Sys2Proof/Proofs/ThresholdMapping.lean ====
section
/-! PROOFS. The threshold mapping: the function written out (O35), overflow (O36), and what a count reads back as (O41,
O42). Where `rawOf` gives a count, the count is a rounded-down quotient, and the two bounds of that rounding say
everything about the way back. -/

namespace Sys2Proof.Machine

open Sys2Proof

/-! ### A count that must fit 16 bits (42_threshold_mapper.md R172) -/

theorem fitCount_of_le {q : Nat} (h : q ≤ 0xFFFF) (o : ThreshOverflow) : fitCount o q = .ok (BitVec.ofNat 16 q) :=
  if_pos h

theorem fitCount_reject {q : Nat} (h : 0xFFFF < q) : fitCount .reject q = .error .outOfRange := if_neg h.not_ge

theorem fitCount_saturate {q : Nat} (h : 0xFFFF < q) : fitCount .saturate q = .ok 0xFFFF := if_neg h.not_ge

/-- Under REJECT a count that fits is kept as it is. -/
theorem fitCount_reject_ok {n : Nat} {q : Reg16} (h : fitCount .reject n = .ok q) : q.toNat = n := by
  rcases fitCount_cases .reject n with ⟨hle, e⟩ | ⟨-, -, e⟩ | ⟨-, hsaturate, -⟩
  · obtain rfl := Except.ok.inj (e.symm.trans h)
    exact Nat.mod_eq_of_lt (Nat.lt_succ_of_le hle)
  · cases e.symm.trans h
  · cases hsaturate

/-! ### The mapping by its checks: range, then pair, then overflow (42_threshold_mapper.md R170, R171) -/

section Mapping

variable {p : Params} {lux : Int} {t : BitVec 4} {it : IntTime}

theorem rawOf_outOfRange (h : ¬(0 ≤ lux ∧ lux ≤ p.threshMaxLux)) (g : Gain) (t : BitVec 4) :
    rawOf p lux g t = .error .outOfRange :=
  if_neg (mt (luxInRange_iff p lux).1 h)

theorem rawOf_reserved (h0 : 0 ≤ lux) (h1 : lux ≤ p.threshMaxLux) (ht : t.toNat ∉ [0, 1, 2, 3, 8, 12]) (g : Gain) :
    rawOf p lux g t = .error .unsupportedConfiguration := by
  rw [rawOf, if_pos ((luxInRange_iff p lux).2 ⟨h0, h1⟩), intTimeOf_eq_none.2 ht]

theorem rawOf_legal (h0 : 0 ≤ lux) (h1 : lux ≤ p.threshMaxLux) (hit : intTimeOf t = some it) (g : Gain) :
    rawOf p lux g t = fitCount p.threshOverflow (rawCount p lux g it) := by
  rw [rawOf, if_pos ((luxInRange_iff p lux).2 ⟨h0, h1⟩), hit]

/-- This hardware maps only an in-range lux, and to its count. -/
theorem rawOf_ok {g : Gain} {q : Reg16} (hit : intTimeOf t = some it) (h : rawOf hardware lux g t = .ok q) :
    0 ≤ lux ∧ q.toNat = rawCount hardware lux g it := by
  by_cases hr : 0 ≤ lux ∧ lux ≤ hardware.threshMaxLux
  · obtain ⟨h0, h1⟩ := hr
    rw [rawOf_legal h0 h1 hit] at h
    exact ⟨h0, fitCount_reject_ok h⟩
  · rw [rawOf_outOfRange hr] at h
    cases h

end Mapping

/-- The count as a quotient of integers, as the spec writes it. -/
theorem rawCount_eq_ediv {lux : Int} (h : 0 ≤ lux) (g : Gain) (t : IntTime) :
    (rawCount hardware lux g t : Int) = lux * 10000 / resolution g t := by
  simp [rawCount, h]

/-- Settles O35, by the checks in their order. -/
theorem thresholdFunctionIsStated : Obligations.ThresholdFunctionIsStated := by
  refine fun lux g t => ⟨fun h => rawOf_outOfRange ?_ g t, fun h0 h1 ht => rawOf_reserved h0 h1 ht g,
    fun it h0 h1 hit => ?_⟩
  · rw [hardware_threshMaxLux]
    omega
  rw [rawOf_legal h0 h1 hit, ← rawCount_eq_ediv h0]
  refine ⟨fun hgt => fitCount_reject (by exact_mod_cast hgt), fun hle => ?_⟩
  have hfits : rawCount hardware lux g it ≤ 0xFFFF := by exact_mod_cast hle
  exact ⟨_, fitCount_of_le hfits _, congrArg _ (fitCount_reject_ok (fitCount_of_le hfits _))⟩

/-! ### Overflow -/

/-- The largest in-range lux without overflow, by resolution (42_threshold_mapper.md R172). -/
def maxLuxRows : List (Nat × Nat) :=
  [(36, 235), (72, 471), (144, 943), (288, 1887), (576, 3774), (1152, 7549), (2304, 15099), (4608, 30198),
    (9216, 60397), (18432, 120000)]

/-- In each row the lux does not overflow, and the next one does or is out of range. -/
theorem maxLuxRows_exact :
    ∀ row ∈ maxLuxRows, row.2 * 10000 < 0x10000 * row.1 ∧
      (0x10000 * row.1 ≤ (row.2 + 1) * 10000 ∨ row.2 = 120000) := by
  decide

/-- When a count fits 16 bits. -/
theorem rawCount_fits_iff (lux : Int) (g : Gain) (t : IntTime) :
    rawCount hardware lux g t ≤ 0xFFFF ↔ lux.toNat * 10000 < 0x10000 * resolution g t := by
  have hpos : 0 < resolution g t := Nat.lt_of_lt_of_le (by decide) (resolution_bounds g t).1
  rw [← Nat.div_lt_iff_lt_mul hpos]
  exact Nat.lt_succ_iff.symm

/-- Settles O36: above 16 bits the parameter decides, and each row of the table is exact. -/
theorem overflowFollowsTheParameter : Obligations.OverflowFollowsTheParameter := by
  refine ⟨fun p lux g t it hit h0 h1 hgt => ?_, rfl, fun r m hrow g t hr lux h0 h1 => ?_⟩
  · rw [rawOf_legal h0 h1 hit]
    exact ⟨fun ho => ho ▸ fitCount_reject hgt, fun ho => ho ▸ fitCount_saturate hgt⟩
  · obtain ⟨hfits, hnext⟩ := maxLuxRows_exact (r, m) hrow
    rw [rawCount_fits_iff, hr]
    omega

/-! ### Back from the count to a lux -/

section Readback

variable {lux : Int} {g : Gain} {t : BitVec 4} {it : IntTime} {q : Reg16}

/-- The exact lux of the count is less than one count's worth below the lux, and never above it
(42_threshold_mapper.md R176). -/
theorem count_mul_resolution_bounds (hit : intTimeOf t = some it) (h : rawOf hardware lux g t = .ok q) :
    lux * 10000 - resolution g it < q.toNat * resolution g it ∧ (q.toNat : Int) * resolution g it ≤ lux * 10000 := by
  obtain ⟨h0, hq⟩ := rawOf_ok hit h
  have hpos : (0 : Int) < resolution g it := by exact_mod_cast (resolution_bounds g it).1.trans_lt' (by decide)
  rw [hq, rawCount_eq_ediv h0]
  have hlower := Int.lt_ediv_add_one_mul_self (lux * 10000) hpos
  exact ⟨by linarith only [hlower], Int.ediv_mul_le _ hpos.ne'⟩

/-- The uncompensated lux of the count is at most the lux, and below it by at most the 1 or 2 lux of one count. -/
theorem linearLux_count_bounds (hit : intTimeOf t = some it) (h : rawOf hardware lux g t = .ok q) :
    (linearLux hardware q g it : Int) ≤ lux ∧ lux - 2 ≤ linearLux hardware q g it ∧
    (resolution g it ≤ 9216 → lux - 1 ≤ linearLux hardware q g it) := by
  obtain ⟨hlower, hupper⟩ := count_mul_resolution_bounds hit h
  have hres := (resolution_bounds g it).2
  have hlinear : (linearLux hardware q g it : Int) = q.toNat * resolution g it / 10000 := by simp [linearLux]
  omega

/-- Settles O41: the uncompensated lux of the count is at most 1000, so it is the lux read back. -/
theorem thresholdRoundTrip : Obligations.ThresholdRoundTrip := by
  intro lux g t it q _ h1 hit h
  obtain ⟨hlower, hupper⟩ := count_mul_resolution_bounds hit h
  obtain ⟨hle, htwo, hone⟩ := linearLux_count_bounds hit h
  have hknee : linearLux hardware q g it ≤ 1000 := by omega
  refine ⟨hlower, hupper, linearLux hardware q g it, ?_, hle, hknee, hone, fun _ => htwo⟩
  rw [luxOf_legal hit, luxValue_eq_kneeLuxOf, kneeLuxOf_of_le hknee]

/-- A compensated lux exceeds the uncompensated one by at least the 75 lux it does so at 1001. -/
theorem add_le_comp {l : Nat} (h : 1000 < l) : l + 75 ≤ comp l := by
  have hgrowth := comp_strictMono.add_le_nat (l - 1001) 1001
  rw [comp_1001, Nat.sub_add_cancel h] at hgrowth
  omega

/-- Settles O42: compensation adds more than the rounding takes away. -/
theorem thresholdPathIsNotCompensated : Obligations.ThresholdPathIsNotCompensated := by
  intro lux g t it q hit h
  obtain ⟨hle, htwo, -⟩ := linearLux_count_bounds hit h
  refine ⟨hle, htwo, fun hknee => ?_⟩
  rw [luxValue_eq_kneeLuxOf, kneeLuxOf_of_gt hknee]
  have hcomp := add_le_comp hknee
  omega

end Readback

end Sys2Proof.Machine
end

