-- ==== Sys2Proof/Proofs/ThresholdCommands.lean ====
section
/-! PROOFS. LUX2RAW (O37), the range check of both threshold commands (O38), and SET_THRESH (O39, O40). Each command
ends as `rawOf` does, and `completedAfter` absorbs the calls of SET_THRESH one by one. -/

namespace Sys2Proof.Machine

open Sys2Proof

/-! ### LUX2RAW -/

section LuxToRaw

variable {g : Gain} {t : BitVec 4} {lux : Word32}

theorem exec_luxToRaw_ok {q : Reg16} (h : rawOf hardware lux.toInt g t = .ok q) (s : State) :
    exec (.luxToRaw g t lux) s = .next (finish (zext32 q) s) := by
  rw [exec_luxToRaw, signed32, h]

theorem exec_luxToRaw_error {st : Status} (h : rawOf hardware lux.toInt g t = .error st) (s : State) :
    exec (.luxToRaw g t lux) s = .next (raise st s) := by
  rw [exec_luxToRaw, signed32, h]

end LuxToRaw

/-- Settles O37, by what the mapping gives. -/
theorem luxToRawResult : Obligations.LuxToRawResult :=
  fun _ _ _ s => ⟨fun _ h => exec_luxToRaw_ok h s, fun h => exec_luxToRaw_error h s, fun h => exec_luxToRaw_error h s⟩

/-- Settles O38: both commands raise before any call, and so complete after no record. -/
theorem outOfRangeLuxMakesNoCall : Obligations.OutOfRangeLuxMakesNoCall := by
  refine fun lux s h => ⟨fun g t => ?_, fun sel => ?_⟩
  · have hrange : ¬(0 ≤ lux.toInt ∧ lux.toInt ≤ hardware.threshMaxLux) := by
      rw [hardware_threshMaxLux]
      omega
    rw [exec_luxToRaw_error (rawOf_outOfRange hrange g t), raise_eq_completedAfter]
    rfl
  · rw [exec_setThresh_outOfRange sel s h, raise_eq_completedAfter]
    rfl

/-! ### SET_THRESH -/

/-- Settles O39: the completion absorbs the write and then the read of SETTING. -/
theorem setThreshCompletes : Obligations.SetThreshCompletes := by
  intro sel lux s a₁ a₂ rest v q h0 h1 h hv ha hq
  rw [exec_setThresh_afterRead h0 h1 hq h hv, memWrite_of_acceptsWrite (afterRead_answers h _ _) ha,
    finish_eq_completedAfter, completedAfter_afterWrite, completedAfter_afterRead]
  cases sel <;> rfl

/-- SET_THRESH under a pair for which the mapping fails ends after its read of SETTING (42_threshold_mapper.md R174). -/
theorem exec_setThresh_error {lux : Word32} {s : State} {a : Answer} {v : Reg16} {rest : List Answer} {st : Status}
    (sel : Threshold) (h0 : 0 ≤ lux.toInt) (h1 : lux.toInt ≤ 120000) (h : s.answers = a :: rest)
    (hv : bringsValue s.device .setting a v)
    (hst : rawOf hardware lux.toInt (settingGain v) (settingItCode v) = .error st) :
    exec (.setThresh sel lux) s = .next (completedAfter s [readEvent .setting (some v)] st.code 0) := by
  rw [exec_setThresh sel s h0 h1, memRead_of_bringsValue h hv, signed32, hst, ← completedAfter_afterRead,
    ← raise_eq_completedAfter]

/-- Settles O40: a failed call completes, and so does a failed mapping after the read of SETTING. -/
theorem setThreshErrors : Obligations.SetThreshErrors := by
  refine fun sel lux s h0 h1 => ⟨fun rest h => ?firstCall, fun a₁ v rest h hv =>
    ⟨exec_setThresh_error sel h0 h1 h hv, exec_setThresh_error sel h0 h1 h hv⟩, fun a₁ v q rest h hv hq => ?secondCall⟩
  case firstCall =>
    rw [exec_setThresh sel s h0 h1, memRead_failed h]
    rfl
  case secondCall =>
    rw [exec_setThresh_afterRead h0 h1 hq h hv, memWrite_failed (afterRead_answers h _ _), completedAfter_afterRead]
    cases sel <;> rfl

end Sys2Proof.Machine
end

section
/-! PROOFS. The host protocol's single steps: what a presentation does (O4), what a completion sets (O10), a loss of
device power (O50), and that every step answers a next state (O59). -/

namespace Sys2Proof.Machine

open Sys2Proof

/-- Acceptance and the whole command: the accepted state runs the program of its own words, legal or not. -/
theorem runCommand_eq_run (cw opd : Word32) (s : State) :
    runCommand cw opd s = .next ((latchedProgram (accept cw opd s)).run (accept cw opd s)) := by
  cases hd : decode cw opd with
  | command i =>
    have hprog : latchedProgram (accept cw opd s) = programOf i := by simp [latchedProgram, hd]
    rw [runCommand_command hd, hprog, exec_eq_run]
  | illegal why =>
    have hprog : latchedProgram (accept cw opd s) = .raise .illegalCommand := by simp [latchedProgram, hd]
    rw [runCommand_illegal hd, hprog, Program.run_raise]

/-- A presentation, to be run step by step, to an idle block. -/
theorem step_presentStepwise_idle {s : State} {cw opd : Word32} {rest : List Input}
    (hin : s.inputs = .presentStepwise cw opd :: rest) (hidle : s.busy = false) :
    step s = .next (awaitStep [] (accept cw opd { s with inputs := rest })) :=
  (step_of_cons hin).trans (congrArg Host.Outcome.next (takePresentStepwise_idle hidle))

/-- A presentation of either kind to a busy block is taken and has no effect (60_exceptions.md R215). -/
theorem step_present_busy {s : State} {cw opd : Word32} {rest : List Input}
    (hin : s.inputs = .present cw opd :: rest ∨ s.inputs = .presentStepwise cw opd :: rest) (hbusy : s.busy = true) :
    step s = .next { s with inputs := rest } := by
  rcases hin with hin | hin
  · exact (step_of_cons hin).trans (takePresent_busy hbusy)
  · exact (step_of_cons hin).trans (congrArg Host.Outcome.next (takePresentStepwise_busy hbusy))

/-- Settles O4, by the kind of the presentation and whether the block is busy. -/
theorem stepRunsPresentedCommand : Obligations.StepRunsPresentedCommand := by
  refine ⟨fun s cw opd rest i hin hidle hd => ?_, fun s cw opd rest hin hidle => ?_,
    fun s cw opd rest hin hbusy => step_present_busy hin hbusy⟩
  · rw [step_present_idle hin hidle, runCommand_command hd]
    rfl
  · rw [step_presentStepwise_idle hin hidle]
    rfl

/-- Settles O10: the statement writes the two completions and the seven codes out. -/
theorem completionSetsTheResponse : Obligations.CompletionSetsTheResponse :=
  ⟨fun _ _ => rfl, fun _ _ => rfl, rfl, rfl, rfl, rfl, rfl, rfl, rfl⟩

/-- Settles O50: the step takes the input, which does `losePower` alone. -/
theorem powerLossIsInvisibleToTheBlock : Obligations.PowerLossIsInvisibleToTheBlock := by
  intro s rest hin
  rw [step_of_cons hin]
  rfl

/-- Every input answers a next state; a presentation does because a command is a program, which runs to some state. -/
theorem takeInput_next (e : Input) (s : State) : ∃ t, takeInput e s = .next t := by
  cases e with
  | present cw opd =>
    cases hb : s.busy with
    | true => exact ⟨s, takePresent_busy hb⟩
    | false => exact ⟨_, (takePresent_idle hb).trans (runCommand_eq_run cw opd s)⟩
  | presentStepwise cw opd => exact ⟨_, rfl⟩
  | reset landed => exact ⟨_, rfl⟩
  | powerLoss => exact ⟨_, rfl⟩
  | quiet => exact ⟨_, rfl⟩

/-- Settles O59: a step is the block's own step or takes an input. -/
theorem stepAlwaysAnswersNext : Obligations.StepAlwaysAnswersNext := by
  intro s
  cases hin : s.inputs with
  | nil => exact ⟨_, step_of_nil hin⟩
  | cons e rest =>
    rw [step_of_cons hin]
    exact takeInput_next e _

end Sys2Proof.Machine
end

section
/-! PROOFS. How a command ends (O51 to O54). What it may complete with, and what an error leaves, follow from the
ways a command can go (`Runs`). That it ends in one of three ways, that it completes when it is answered, and that its
single steps reach the same state, follow by induction on its program, whose calls `CallsAtMost` counts. -/

namespace Sys2Proof.Machine

open Sys2Proof

/-! ### The status of a completion -/

/-- However a command completes, it does so with an allowed status. -/
theorem Runs.status_allowed {allowed : List Status} {ops : Calls} {s t : State} (h : Runs allowed ops s t)
    (hp : t.phase = .idle) : ∃ st ∈ allowed, t.rspStatus = st.code := by
  induction h with
  | finish _ _ _ hok => exact ⟨.ok, hok, rfl⟩
  | writeOk _ _ _ _ hok _ => exact ⟨.ok, hok, rfl⟩
  | raise _ st _ hst _ => exact ⟨st, hst, rfl⟩
  | readErr _ _ _ hbus => exact ⟨.busError, hbus, rfl⟩
  | writeErr _ _ _ hbus _ => exact ⟨.busError, hbus, rfl⟩
  | readOk _ _ _ _ _ _ ih => exact ih hp
  | settle | readNever | writeSettle | writeNever => cases hp

/-- Settles O51, by the ways a well-formed command can go. -/
theorem commandCompletesWithItsStatuses : Obligations.CommandCompletesWithItsStatuses :=
  fun _ _ _ hw h hp => (runs_of_exec_wellFormed hw h).status_allowed hp

/-- A command that completes with an error has only appended records, none of a landed write, and set the response:
its write is its last call, and once it has landed no check is left to fail (40_register_codec.md R121). -/
theorem Runs.error_completedAfter {allowed : List Status} {ops : Calls} {s t : State} (h : Runs allowed ops s t)
    (hp : t.phase = .idle) (herr : t.rspStatus ≠ 0) :
    ∃ ev code, t = completedAfter s ev code 0 ∧ ∀ dev a v, Event.write dev a v true ∉ ev := by
  induction h with
  | raise _ st s _ _ => exact ⟨[], st.code, raise_eq_completedAfter st s, by simp⟩
  | readOk a v _ s t _ ih =>
    obtain ⟨ev, code, rfl, hev⟩ := ih hp herr
    exact ⟨readEvent a (some v) :: ev, code, completedAfter_call _ s ev code 0, by simpa [readEvent] using hev⟩
  | readErr a _ s _ =>
    exact ⟨[readEvent a none], _, by rw [raise_eq_completedAfter, completedAfter_call], by simp [readEvent]⟩
  | writeErr a v s _ _ =>
    exact ⟨[writeEvent a v false], _, by rw [raise_eq_completedAfter, completedAfter_call], by simp [writeEvent]⟩
  | finish | writeOk => exact absurd rfl herr
  | settle | readNever | writeSettle | writeNever => cases hp

/-- Settles O52: `completedAfter` changes the history, the answers, the call count and the response alone. -/
theorem errorLeavesBlockAndDevice : Obligations.ErrorLeavesBlockAndDevice := by
  intro i s t h hp herr
  obtain ⟨ev, code, rfl, hev⟩ := (runs_of_exec h).error_completedAfter hp herr
  exact ⟨rfl, rfl, rfl, rfl, rfl, rfl, rfl, rfl, rfl, rfl, rfl, rfl, ev, rfl, hev⟩

/-! ### How many calls a program makes -/

/-- A program that makes at most `n` calls, whatever they are answered. -/
inductive CallsAtMost : Nat → Program → Prop where
  | finish (n : Nat) (r : Word32) : CallsAtMost n (.finish r)
  | raise (n : Nat) (st : Status) : CallsAtMost n (.raise st)
  | settle (n : Nat) (r : Word32) : CallsAtMost n (.settle r)
  | read (n : Nat) (a : RegAddr) (k : Reg16 → Program) (h : ∀ v, CallsAtMost n (k v)) :
      CallsAtMost (n + 1) (.read a k)
  | write (n : Nat) (a : RegAddr) (v : Reg16) (p : Program) (h : CallsAtMost n p) :
      CallsAtMost (n + 1) (.write a v p)

theorem CallsAtMost.mono {m n : Nat} {p : Program} (h : CallsAtMost m p) (hmn : m ≤ n) : CallsAtMost n p := by
  induction h generalizing n with
  | finish _ r => exact .finish n r
  | raise _ st => exact .raise n st
  | settle _ r => exact .settle n r
  | read m a k _ ih =>
    obtain ⟨n, rfl⟩ := Nat.exists_eq_add_of_le' hmn
    exact .read (n + m) a k fun v => ih v (Nat.le_add_left m n)
  | write m a v p _ ih =>
    obtain ⟨n, rfl⟩ := Nat.exists_eq_add_of_le' hmn
    exact .write (n + m) a v p (ih (Nat.le_add_left m n))

/-- A program makes no more calls than its bounds list. -/
theorem Within.callsAtMost {allowed : List Status} {ops : Calls} {p : Program} (h : Within allowed ops p) :
    CallsAtMost ops.length p := by
  induction h with
  | finish ops r _ => exact .finish _ r
  | raise ops st _ _ => exact .raise _ st
  | settle ops r => exact .settle _ r
  | read a ops k _ _ ih => exact .read _ a k ih
  | writeFinish a v r _ _ _ => exact .write 0 a v _ (.finish 0 r)
  | writeSettle a v r _ _ => exact .write 0 a v _ (.settle 0 r)

/-- Every command makes at most two calls (20_memory.md R69). -/
theorem programOf_callsAtMost (i : Instr) : CallsAtMost 2 (programOf i) :=
  (programOf_within i (.illegalCommand :: allowedStatuses i) (fun _ hs => List.mem_cons_of_mem _ hs)
    (fun _ => List.mem_cons_self)).callsAtMost.mono (callsOf_length_le i)

/-- The same of the latched words: an illegal pair makes no call. -/
theorem latchedProgram_callsAtMost (s : State) : CallsAtMost 2 (latchedProgram s) := by
  unfold latchedProgram
  split
  · exact programOf_callsAtMost _
  · exact .raise 2 _

/-- A program starts no more calls than its count. -/
theorem CallsAtMost.run_callIndex_le {n : Nat} {p : Program} (h : CallsAtMost n p) (s : State) :
    (p.run s).callIndex ≤ s.callIndex + n := by
  induction h generalizing s with
  | finish n r => exact Nat.le_add_right _ n
  | raise n st => exact Nat.le_add_right _ n
  | settle n r => exact Nat.le_add_right _ n
  | read n a k _ ih =>
    rcases memRead_cases a s (fun v s₁ => (k v).run s₁) with ⟨v, -, e⟩ | ⟨-, e⟩ | ⟨-, e⟩ <;> rw [Program.run_read, e]
    · have hrest := ih v (record (readEvent a (some v)) (startCall s))
      simp only [record_callIndex, startCall_callIndex] at hrest
      omega
    · simp
    · simp
  | write n a v p _ ih =>
    rcases memWrite_cases a v s (fun s₁ => p.run s₁) with ⟨-, e⟩ | ⟨-, e⟩ | ⟨-, e⟩ <;> rw [Program.run_write, e]
    · have hrest := ih (land a v (record (writeEvent a v true) (startCall s)))
      simp only [land_callIndex, record_callIndex, startCall_callIndex] at hrest
      omega
    · simp
    · simp

/-- One step of a program starts at most one call (20_memory.md R71). -/
theorem Program.nextStep_callIndex_le (p : Program) (l : List (Option Reg16)) (s : State) :
    (p.nextStep l s).callIndex ≤ s.callIndex + 1 := by
  rcases p.nextStep_cases l s with ⟨r, -, e⟩ | ⟨st, -, e⟩ | ⟨r, -, e⟩ | ⟨a, k, -, hread⟩ | ⟨a, v, q, -, hwrite⟩
  · simp [e]
  · simp [e]
  · simp [e]
  · rcases hread with ⟨v, -, e⟩ | ⟨-, e⟩ | ⟨-, e⟩ <;> simp [e]
  · rcases hwrite with ⟨-, e⟩ | ⟨-, e⟩ | ⟨-, e⟩ <;> simp [e]

theorem ownStep_callIndex_le (s : State) : (ownStep s).callIndex ≤ s.callIndex + 1 := by
  rcases ownStep_cases s with e | ⟨l, -, -, -, e⟩ | ⟨-, -, e⟩ | ⟨-, -, e⟩ <;> rw [e]
  · exact Nat.le_add_right _ 1
  · exact Program.nextStep_callIndex_le _ l s
  · exact Nat.le_add_right _ 1
  · exact Nat.le_add_right _ 1

/-! ### The ways a program ends -/

/-- The states a program can end in. -/
inductive ProgramEnd : State → Prop where
  | finish (r : Word32) (s : State) : ProgramEnd (Machine.finish r s)
  | raise (st : Status) (s : State) : ProgramEnd (Machine.raise st s)
  | settle (r : Word32) (s : State) : ProgramEnd (enterSettle r s)
  | stuck (c : BusCall) (s : State) : ProgramEnd (hang c s)

theorem Program.run_end (p : Program) (s : State) : ProgramEnd (p.run s) := by
  induction p generalizing s with
  | finish r => exact .finish r s
  | raise st => exact .raise st s
  | settle r => exact .settle r s
  | read a k ih =>
    rcases memRead_cases a s (fun v s₁ => (k v).run s₁) with ⟨v, -, e⟩ | ⟨-, e⟩ | ⟨-, e⟩ <;> rw [Program.run_read, e]
    · exact ih v _
    · exact .raise _ _
    · exact .stuck _ _
  | write a v p ih =>
    rcases memWrite_cases a v s (fun s₁ => p.run s₁) with ⟨-, e⟩ | ⟨-, e⟩ | ⟨-, e⟩ <;> rw [Program.run_write, e]
    · exact ih _
    · exact .raise _ _
    · exact .stuck _ _

/-- The own steps that end a settle wait complete the command with the result it holds. -/
theorem enterSettle_afterSettle (r : Word32) (s : State) :
    (enterSettle r s).afterSettle = endSettle (waitSettle (enterSettle r s)) := by
  obtain ⟨hwait, hend⟩ := afterSettle_enterSettle r s
  rw [State.afterSettle, hwait, hend]

/-- A program's end is completed, in the settle wait that completes it with OK, or stuck (60_exceptions.md R216). -/
theorem ProgramEnd.three_ways {t : State} (h : ProgramEnd t) :
    (t.phase = .idle ∧ t.busy = false ∧ t.rspValid = true) ∨
    (t.phase = .settle ∧ t.busy = true ∧ (ownStep t).phase = .settle ∧ t.afterSettle.phase = .idle ∧
      t.afterSettle.busy = false ∧ t.afterSettle.rspValid = true ∧ t.afterSettle.rspStatus = 0) ∨
    (t.phase = .exec ∧ t.busy = true ∧ t.inflight.isSome = true ∧ ownStep t = t) := by
  cases h with
  | finish r s => exact .inl ⟨rfl, rfl, rfl⟩
  | raise st s => exact .inl ⟨rfl, rfl, rfl⟩
  | settle r s =>
    rw [enterSettle_afterSettle, (afterSettle_enterSettle r s).1]
    exact .inr (.inl ⟨rfl, rfl, rfl, rfl, rfl, rfl, rfl⟩)
  | stuck c s => exact .inr (.inr ⟨rfl, rfl, rfl, ownStep_stuck rfl rfl⟩)

/-! ### A command whose calls are answered -/

/-- The first `n` answers to come are listed, and none is silent. -/
def Answered (n : Nat) (answers : List Answer) : Prop :=
  ∀ i < n, ∃ a, answers[i]? = some a ∧ a ≠ .silent

/-- A call takes the first answer. -/
theorem Answered.tail {n : Nat} {answers : List Answer} (h : Answered (n + 1) answers) : Answered n answers.tail :=
  fun i hi => by simpa using h (i + 1) (by omega)

/-- The first answer is the next call's. -/
theorem Answered.nextAnswer_ne_silent {n : Nat} {s : State} (h : Answered (n + 1) s.answers) (c : BusCall) :
    nextAnswer c s ≠ .silent := by
  obtain ⟨a, hget, hne⟩ := h 0 n.succ_pos
  cases hs : s.answers with
  | nil => simp [hs] at hget
  | cons b rest =>
    obtain rfl : b = a := by simpa [hs] using hget
    rwa [nextAnswer_of_cons hs]

/-- Only a silent answer leaves a read without a reply. -/
theorem nextAnswer_of_readReply_never {a : RegAddr} {s : State} (h : readReply a s = .never) :
    nextAnswer (.read a) s = .silent := by
  cases hn : nextAnswer (.read a) s with
  | silent => rfl
  | ok v => simp [readReply_ok hn] at h
  | err => simp [readReply_err hn] at h
  | held => simp [readReply_held hn] at h

/-- Only a silent answer leaves a write without a reply. -/
theorem nextAnswer_of_writeReply_never {a : RegAddr} {v : Reg16} {s : State} (h : writeReply a v s = .never) :
    nextAnswer (.write a v) s = .silent := by
  cases hn : nextAnswer (.write a v) s with
  | silent => rfl
  | ok w => simp [writeReply_ok hn] at h
  | err => simp [writeReply_err hn] at h
  | held => simp [writeReply_held hn] at h

/-- A program whose calls are all answered does not end stuck. -/
theorem CallsAtMost.run_phase_ne_exec {n : Nat} {p : Program} (h : CallsAtMost n p) {s : State}
    (ha : Answered n s.answers) : (p.run s).phase ≠ .exec := by
  induction h generalizing s with
  | finish | raise | settle => simp
  | read n a k _ ih =>
    rcases memRead_cases a s (fun v s₁ => (k v).run s₁) with ⟨v, -, e⟩ | ⟨-, e⟩ | ⟨hnever, -⟩
    · rw [Program.run_read, e]; exact ih v ha.tail
    · rw [Program.run_read, e]; simp
    · exact absurd (nextAnswer_of_readReply_never hnever) (ha.nextAnswer_ne_silent _)
  | write n a v p _ ih =>
    rcases memWrite_cases a v s (fun s₁ => p.run s₁) with ⟨-, e⟩ | ⟨-, e⟩ | ⟨hnever, -⟩
    · rw [Program.run_write, e]; exact ih ha.tail
    · rw [Program.run_write, e]; simp
    · exact absurd (nextAnswer_of_writeReply_never hnever) (ha.nextAnswer_ne_silent _)

/-- Settles O54: of the three ways to end, the answers rule out the stuck one, and an idle block's own steps change
nothing. -/
theorem answeredCommandCompletes : Obligations.AnsweredCommandCompletes := by
  intro i s a₁ a₂ rest hs h₁ h₂
  have hanswered : Answered 2 s.answers := by
    intro j hj
    interval_cases j
    · exact ⟨a₁, by simp [hs], h₁⟩
    · exact ⟨a₂, by simp [hs], h₂⟩
  refine ⟨(programOf i).run s, exec_eq_run i s, ?_⟩
  rcases ((programOf i).run_end s).three_ways with ⟨hp, hb, hv⟩ | ⟨-, -, -, hp, hb, hv, -⟩ | ⟨hp, -⟩
  · rw [State.afterSettle_idle hp]
    exact ⟨hp, hb, hv⟩
  · exact ⟨hp, hb, hv⟩
  · exact absurd hp ((programOf_callsAtMost i).run_phase_ne_exec hanswered)

/-! ### A command taken one step at a time -/

/-- With no input listed, the block is between two steps of the command it has latched: its calls have had the answers
`l`, and the program `p` is what is left of it. -/
structure Midway (p : Program) (l : List (Option Reg16)) (s : State) : Prop where
  phase : s.phase = .exec
  no_call : s.inflight = none
  progress : s.progress = some l
  no_input : s.inputs = []
  left : (latchedProgram s).after l = p

theorem Midway.step_eq {p : Program} {l : List (Option Reg16)} {s : State} (h : Midway p l s) :
    step s = .next (p.nextStep l s) := by
  rw [step_of_nil h.no_input, ownStep_exec h.phase h.no_call h.progress, h.left]

/-- After an accepted presentation with no input behind it, the whole command is left. -/
theorem midway_accept {s : State} (hcall : s.inflight = none) (hin : s.inputs = []) (cw opd : Word32) :
    Midway (latchedProgram (accept cw opd s)) [] (awaitStep [] (accept cw opd s)) :=
  ⟨rfl, hcall, rfl, hin, latchedProgram_congr rfl rfl⟩

/-- After an answered call, whatever else it did, what the program does with the answer is left. -/
theorem Midway.await {p : Program} {l : List (Option Reg16)} {s s' : State} (h : Midway p l s) {x : Option Reg16}
    (hcw : s'.cw = s.cw) (hopd : s'.opd = s.opd) (hphase : s'.phase = s.phase) (hcall : s'.inflight = s.inflight)
    (hin : s'.inputs = s.inputs) : Midway (p.answered x) (l ++ [x]) (awaitStep (l ++ [x]) s') where
  phase := hphase.trans h.phase
  no_call := hcall.trans h.no_call
  progress := rfl
  no_input := hin.trans h.no_input
  left := by
    have hlatched : latchedProgram (awaitStep (l ++ [x]) s') = latchedProgram s := latchedProgram_congr hcw hopd
    rw [hlatched, Program.after_append, h.left]

/-- Within `n` steps from `s` the block is in the state `t`, but for `progress`, which it has left unless it is
stuck. -/
def ReachesWithin (n : Nat) (s t : State) : Prop :=
  ∃ u k, k ≤ n ∧ Host.Core.run Sys2Proof.core k s = .next u ∧ u = { t with progress := u.progress } ∧
    (u.phase ≠ .exec → u.progress = none)

/-- A step, and then `n` more. -/
theorem ReachesWithin.of_step {n : Nat} {s s' t : State} (hstep : step s = .next s') (h : ReachesWithin n s' t) :
    ReachesWithin (n + 1) s t := by
  obtain ⟨u, k, hk, hrun, hu, hprogress⟩ := h
  exact ⟨u, k + 1, Nat.succ_le_succ hk, (run_succ_of_next hstep).trans hrun, hu, hprogress⟩

/-- What `ReachesWithin` says of the state reached leaves `progress` out. -/
theorem ReachesWithin.of_progress {n : Nat} {s t : State} {l : Option (List (Option Reg16))}
    (h : ReachesWithin n s { t with progress := l }) : ReachesWithin n s t := h

/-- The last step of a command leads to the state that its whole program ends in. -/
theorem Midway.reaches_of_last {p : Program} {l : List (Option Reg16)} {s : State} (h : Midway p l s) (n : Nat)
    (hrun : p.nextStep l s = { p.run s with progress := (p.nextStep l s).progress })
    (hprogress : (p.nextStep l s).phase ≠ .exec → (p.nextStep l s).progress = none) :
    ReachesWithin (n + 1) s (p.run s) :=
  ⟨p.nextStep l s, 1, Nat.le_add_left 1 n, run_succ_of_next h.step_eq, hrun, hprogress⟩

/-- A call that is never answered leaves the block in the state the whole program ends in. -/
theorem Midway.reaches_of_stuck {p : Program} {l : List (Option Reg16)} {s : State} (h : Midway p l s) (n : Nat)
    {c : BusCall} (hnext : p.nextStep l s = hang c (startCall s)) (hrun : p.run s = hang c (startCall s)) :
    ReachesWithin (n + 1) s (p.run s) :=
  h.reaches_of_last n (by rw [hnext, hrun]) fun hne => absurd (by rw [hnext]; rfl) hne

/-- An answered call takes one step, and the rest of the program the others. -/
theorem Midway.reaches_of_answered {n : Nat} {p q : Program} {l l' : List (Option Reg16)} {s s' : State}
    (h : Midway p l s) (hnext : p.nextStep l s = awaitStep l' s') (hrun : p.run s = q.run s')
    (hrest : ReachesWithin n (awaitStep l' s') (q.run (awaitStep l' s'))) : ReachesWithin (n + 1) s (p.run s) := by
  have hawait : q.run (awaitStep l' s') = { q.run s' with progress := some l' } := q.run_progress s' (some l')
  rw [hawait, ← hrun] at hrest
  exact .of_step (h.step_eq.trans (congrArg _ hnext)) hrest.of_progress

/-- A program with at most `n` calls, taken one step at a time, ends as it does all at once: each call takes a step,
and its end one more. -/
theorem CallsAtMost.reaches_run {n : Nat} {p : Program} (hn : CallsAtMost n p) {l : List (Option Reg16)} {s : State}
    (h : Midway p l s) : ReachesWithin (n + 1) s (p.run s) := by
  induction hn generalizing l s with
  | finish n r => exact h.reaches_of_last n rfl fun _ => rfl
  | raise n st => exact h.reaches_of_last n rfl fun _ => rfl
  | settle n r => exact h.reaches_of_last n rfl fun _ => rfl
  | read n a k _ ih =>
    rcases callRead_cases a s (fun v s₁ => awaitStep (l ++ [some v]) s₁) (awaitStep (l ++ [none])) with
      ⟨v, hreply, hnext⟩ | ⟨hreply, hnext⟩ | ⟨hreply, hnext⟩
    · have hrest := h.await (x := some v) (s' := record (readEvent a (some v)) (startCall s)) rfl rfl rfl rfl rfl
      exact h.reaches_of_answered hnext (memRead_of_ok hreply) (ih v hrest)
    · have hrest := h.await (x := none) (s' := record (readEvent a none) (startCall s)) rfl rfl rfl rfl rfl
      exact h.reaches_of_answered (q := .raise .busError) hnext (memRead_of_err hreply)
        (hrest.reaches_of_last n rfl fun _ => rfl)
    · exact h.reaches_of_stuck (n + 1) hnext (memRead_of_never hreply)
  | write n a v p _ ih =>
    rcases callWrite_cases a v s (awaitStep (l ++ [some v])) (awaitStep (l ++ [none])) with
      ⟨hreply, hnext⟩ | ⟨hreply, hnext⟩ | ⟨hreply, hnext⟩
    · have hrest := h.await (x := some v) (s' := afterWrite a v s) rfl rfl rfl rfl rfl
      exact h.reaches_of_answered hnext (memWrite_of_ok hreply) (ih hrest)
    · have hrest := h.await (x := none) (s' := record (writeEvent a v false) (startCall s)) rfl rfl rfl rfl rfl
      exact h.reaches_of_answered (q := .raise .busError) hnext (memWrite_of_err hreply)
        (hrest.reaches_of_last n rfl fun _ => rfl)
    · exact h.reaches_of_stuck (n + 1) hnext (memWrite_of_never hreply)

/-- A command presented to an idle block with no call in flight, to be run step by step, reaches within three own
steps the state that it reaches all at once. -/
theorem presented_stepwise_reaches_run {s : State} (hin : s.inputs = []) (hcall : s.inflight = none)
    (cw opd : Word32) :
    ReachesWithin 3 (awaitStep [] (accept cw opd s)) ((latchedProgram (accept cw opd s)).run (accept cw opd s)) := by
  have hreach := (latchedProgram_callsAtMost _).reaches_run (midway_accept hcall hin cw opd)
  have hprogress := (latchedProgram (accept cw opd s)).run_progress (accept cw opd s) (some [])
  exact .of_progress (hprogress ▸ hreach)

/-- Settles O53: the ways to end and the count of calls are those of the command's program, and its single steps reach
the state it runs to. -/
theorem commandEndsInOneOfThreeWays : Obligations.CommandEndsInOneOfThreeWays := by
  refine ⟨fun i s => ?_, fun s cw opd hidle hcall => ?_, ownStep_callIndex_le⟩
  · exact ⟨_, exec_eq_run i s, (programOf_callsAtMost i).run_callIndex_le s, ((programOf i).run_end s).three_ways⟩
  · obtain ⟨u, k, hk, hrun, hu, hprogress⟩ :=
      presented_stepwise_reaches_run (s := { s with inputs := [] }) rfl hcall cw opd
    have hwhole := (step_present_idle (s := { s with inputs := [.present cw opd] }) rfl hidle).trans
      (runCommand_eq_run cw opd _)
    have haccept := step_presentStepwise_idle (s := { s with inputs := [.presentStepwise cw opd] }) rfl hidle
    exact ⟨_, u, k, hk, hwhole, (run_succ_of_next haccept).trans hrun, hu, hprogress⟩

end Sys2Proof.Machine
end

section
/-! PROOFS. The block reset (O2), and a reset while busy with the stuck state that only a reset leaves (O3). -/

namespace Sys2Proof.Machine

open Sys2Proof

/-- A reset is taken in one step, whatever the block is doing (70_reset_and_hazards.md R230). -/
theorem step_reset {s : State} {landed : Bool} {rest : List Input} (hin : s.inputs = .reset landed :: rest) :
    step s = .next (blockReset landed { s with inputs := rest }) :=
  step_of_cons hin

/-- An idle block with no input listed waits. -/
theorem step_idle_of_nil {s : State} (hp : s.phase = .idle) (hin : s.inputs = []) : step s = .next s := by
  rw [step_of_nil hin, ownStep_idle hp]

/-- Settles O2: the step is `blockReset`, which writes out the block registers, leaves an idle block, and changes the
device only by a write in flight. -/
theorem blockResetSetsEveryBlockRegister : Obligations.BlockResetSetsEveryBlockRegister := by
  intro s landed rest hin
  refine ⟨_, step_reset hin, rfl, rfl, rfl, rfl, rfl, rfl, rfl, rfl, rfl, rfl, rfl, rfl, ?_, rfl, rfl, ?_⟩
  · exact fun hrest => step_idle_of_nil rfl hrest
  · exact fun hcall => deviceAfterReset_no_write (s := { s with inputs := rest }) hcall

/-- A reset with a write in flight lands it or not, as the reset's bit says (70_reset_and_hazards.md R232). -/
theorem deviceAfterReset_of_write {s : State} {a : RegAddr} {v : Reg16} (hcall : s.inflight = some (.write a v))
    (landed : Bool) : deviceAfterReset landed s = if landed then deviceWrite s.device a v else s.device := by
  cases landed with
  | true => exact deviceAfterReset_landed hcall
  | false => exact deviceAfterReset_not_landed s

/-- Everything an input other than a reset does to a busy block that waits for a call: nothing, or the device loses
power (20_memory.md R68, 60_exceptions.md R213, R215). -/
theorem takeInput_stuck {e : Input} {s : State} (hp : s.phase = .exec) (hb : s.busy = true)
    (hi : s.inflight.isSome = true) (he : ∀ landed, e ≠ .reset landed) :
    takeInput e s = .next s ∨ takeInput e s = .next (losePower s) := by
  cases e with
  | present cw opd => exact .inl (takePresent_busy hb)
  | presentStepwise cw opd => exact .inl (congrArg Host.Outcome.next (takePresentStepwise_busy hb))
  | reset landed => exact absurd rfl (he landed)
  | powerLoss => exact .inr rfl
  | quiet => exact .inl (congrArg Host.Outcome.next (ownStep_stuck hp hi))

/-- Everything a step without a reset does to a busy block that waits for a call: it takes the input, if any, and the
device may lose power. -/
theorem step_stuck {s : State} (hp : s.phase = .exec) (hb : s.busy = true) (hi : s.inflight.isSome = true)
    (hne : ∀ landed rest, s.inputs ≠ .reset landed :: rest) :
    step s = .next { s with inputs := s.inputs.tail } ∨
    step s = .next (losePower { s with inputs := s.inputs.tail }) := by
  cases hin : s.inputs with
  | nil =>
    have hsame : { s with inputs := [] } = s := by rw [← hin]
    exact .inl (by rw [step_of_nil hin, ownStep_stuck hp hi, List.tail_nil, hsame])
  | cons e rest =>
    have he : ∀ landed, e ≠ .reset landed := fun landed h => hne landed rest (h ▸ hin)
    rw [step_of_cons hin]
    exact takeInput_stuck (s := { s with inputs := rest }) hp hb hi he

/-- Settles O3: a reset is taken whether the block is busy or not, its bit says what became of a write in flight, and
no other input moves a stuck block. -/
theorem resetWhileBusyAdmitsBothOutcomes : Obligations.ResetWhileBusyAdmitsBothOutcomes := by
  refine ⟨fun s landed rest hin _ => ?_, fun s landed rest a v hin hcall => ?_, fun s hp hb hi hne => ?_⟩
  · exact ⟨_, step_reset hin, rfl, rfl, rfl, rfl⟩
  · exact ⟨_, step_reset hin, deviceAfterReset_of_write (s := { s with inputs := rest }) hcall landed⟩
  · rcases step_stuck hp hb hi hne with h | h
    · exact ⟨_, h, hp, hb, rfl, rfl, rfl⟩
    · exact ⟨_, h, hp, hb, rfl, rfl, rfl⟩

end Sys2Proof.Machine
end
